-- ==== Sys2Proof/Word.lean ====
section
/-! DEFINITION. The words of the block: bytes, the 16-bit checksum register, and byte buffers of a fixed size
(spec/00_scope.md R8, R10; spec/10_state.md R20). -/

namespace Sys2Proof

/-- R8: a byte is 8 bits, an unsigned number 0 to 255. -/
abbrev Byte := BitVec 8

/-- R100, R102: the checksum register is exactly 16 bits. -/
abbrev Word16 := BitVec 16

/-- R6 FRAME_SIZE, R20: a frame-sized byte array, offsets 0 to 70. -/
abbrev Frame := Vector Byte 71

/-- R6 KEY_LEN, R20: the obfuscation key, indexes 0 to 15. -/
abbrev Key := Vector Byte 16

/-- R80: a packet on the port is a byte sequence. -/
abbrev Packet := List Byte

end Sys2Proof
end

