-- ==== Sys2Proof/Syntax.lean ====
section
/-! DEFINITION. The block's commands as syntax: one constructor per row of spec/opcode_table.json, with the operands of
spec/30_encoding.md R76 and R77. -/

namespace Sys2Proof

/-- R76: the twelve commands. A length operand `n` is not stored: it is the length of the byte list that follows it
(R84: "n = number of listed bytes"). -/
inductive Instr where
  /-- 0x01 FEED `b` (R170). -/
  | feed (b : Byte)
  /-- 0x02 ASM_RESET (R180). -/
  | asmReset
  /-- 0x10 PREPARE `src`, `tgt`, `type`, `n`, `p` (R140). -/
  | prepare (src tgt ty : Byte) (p : List Byte)
  /-- 0x11 VALIDATE (R150). -/
  | validate
  /-- 0x12 FRAME_WRITE `f` (R160). -/
  | frameWrite (f : Frame)
  /-- 0x13 FRAME_READ (R161). -/
  | frameRead
  /-- 0x20 CHECKSUM `n`, `d` (R105). -/
  | checksum (d : List Byte)
  /-- 0x21 OBFUSCATE `n`, `d` (R125). -/
  | obfuscate (d : List Byte)
  /-- 0x22 DEOBFUSCATE `n`, `d` (R126). -/
  | deobfuscate (d : List Byte)
  /-- 0x30 SET_KEY `k` (R130). -/
  | setKey (k : Key)
  /-- 0x31 REG_READ `a` (R200). -/
  | regRead (a : Byte)
  /-- 0x32 REG_WRITE `a`, `v` (R201). -/
  | regWrite (a v : Byte)
  deriving DecidableEq, Repr

end Sys2Proof
end

