-- ==== Sys2Proof/WellFormed.lean ====
section
/-! DEFINITION. Which instructions have a packet: the one-byte length `n` of spec/30_encoding.md R77 must be able to
hold the number of data bytes. Every other operand is in range by its type (a byte, 71 bytes, 16 bytes). -/

namespace Sys2Proof

/-- R77: "`n` is a length from 0 to 255". PREPARE's own limit of 64 is a matter of its meaning, not of its form. -/
def lengthByteFits (d : List Byte) : Bool := d.length ≤ 255

/-- R77: the instruction can be written as a request packet. -/
def Instr.wellFormed : Instr → Bool
  | .feed _ => true
  | .asmReset => true
  | .prepare _ _ _ p => lengthByteFits p
  | .validate => true
  | .frameWrite _ => true
  | .frameRead => true
  | .checksum d => lengthByteFits d
  | .obfuscate d => lengthByteFits d
  | .deobfuscate d => lengthByteFits d
  | .setKey _ => true
  | .regRead _ => true
  | .regWrite _ _ => true

end Sys2Proof
end

