-- ==== Sys2Proof/Decode.lean ====
section
/-! DEFINITION. Request packets: the opcode map, the decoder (total on every byte string, rejecting by name), the
packet length rule and the encoder (spec/30_encoding.md R75 to R79, R86 to R88). -/

namespace Sys2Proof

/-- R76: the defined opcodes. -/
inductive Opcode where
  | feed | asmReset | prepare | validate | frameWrite | frameRead | checksum | obfuscate | deobfuscate | setKey
  | regRead | regWrite
  deriving DecidableEq, Repr

/-- R76: the opcode byte of each command. -/
def Opcode.code : Opcode → Byte
  | .feed => 0x01
  | .asmReset => 0x02
  | .prepare => 0x10
  | .validate => 0x11
  | .frameWrite => 0x12
  | .frameRead => 0x13
  | .checksum => 0x20
  | .obfuscate => 0x21
  | .deobfuscate => 0x22
  | .setKey => 0x30
  | .regRead => 0x31
  | .regWrite => 0x32

/-- R76: all rows of the opcode map. -/
def Opcode.all : List Opcode :=
  [.feed, .asmReset, .prepare, .validate, .frameWrite, .frameRead, .checksum, .obfuscate, .deobfuscate, .setKey,
    .regRead, .regWrite]

/-- R76, R79: the row a byte selects; none for an illegal opcode. -/
def Opcode.ofByte (b : Byte) : Option Opcode := Opcode.all.find? fun o => o.code == b

/-- What a decoder can find at the front of the port's byte stream. -/
inductive Decoded where
  /-- No byte is waiting (R251: the block waits for the first packet). -/
  | noPacket
  /-- A whole packet of a defined command, and the bytes after it. -/
  | command (i : Instr) (rest : List Byte)
  /-- R79: a one-byte packet with an undefined opcode, and the bytes after it. -/
  | illegal (op : Byte) (rest : List Byte)
  /-- R88: the bytes end inside a packet. -/
  | truncated
  deriving DecidableEq, Repr

/-- The first `n` bytes and the rest, if there are that many. -/
def takeBytes (n : Nat) (bs : List Byte) : Option (List Byte × List Byte) :=
  if n ≤ bs.length then some (bs.take n, bs.drop n) else none

/-- The first `n` bytes as a buffer of that size, and the rest, if there are that many. -/
def takeBuffer (n : Nat) (bs : List Byte) : Option (Vector Byte n × List Byte) :=
  if h : n ≤ bs.length then some (⟨(bs.take n).toArray, by simpa using h⟩, bs.drop n) else none

/-- R77: a length byte `n`, exactly `n` data bytes, and the rest. -/
def takeCounted : List Byte → Option (List Byte × List Byte)
  | [] => none
  | n :: bs => takeBytes n.toNat bs

/-- R76, R77: the operand bytes after the opcode. Each is used as the byte it is, in its own order. -/
def decodeOperands (op : Opcode) (bs : List Byte) : Option (Instr × List Byte) :=
  match op with
  | .feed => match bs with
    | b :: rest => some (.feed b, rest)
    | _ => none
  | .asmReset => some (.asmReset, bs)
  | .prepare => match bs with
    | src :: tgt :: ty :: r => (takeCounted r).map fun (p, rest) => (.prepare src tgt ty p, rest)
    | _ => none
  | .validate => some (.validate, bs)
  | .frameWrite => (takeBuffer 71 bs).map fun (f, rest) => (.frameWrite f, rest)
  | .frameRead => some (.frameRead, bs)
  | .checksum => (takeCounted bs).map fun (d, rest) => (.checksum d, rest)
  | .obfuscate => (takeCounted bs).map fun (d, rest) => (.obfuscate d, rest)
  | .deobfuscate => (takeCounted bs).map fun (d, rest) => (.deobfuscate d, rest)
  | .setKey => (takeBuffer 16 bs).map fun (k, rest) => (.setKey k, rest)
  | .regRead => match bs with
    | a :: rest => some (.regRead a, rest)
    | _ => none
  | .regWrite => match bs with
    | a :: v :: rest => some (.regWrite a v, rest)
    | _ => none

/-- R75, R79, R86, R88: the packet at the front of the stream. -/
def decode : List Byte → Decoded
  | [] => .noPacket
  | op :: bs => match Opcode.ofByte op with
    | none => .illegal op bs
    | some o => match decodeOperands o bs with
      | some (i, rest) => .command i rest
      | none => .truncated

/-- R78: the length of the packet at the front of the stream, from its opcode and its length byte. A length byte that
is not there counts as 0, which still leaves the packet longer than the bytes. -/
def packetLength : List Byte → Nat
  | [] => 0
  | op :: bs => match Opcode.ofByte op with
    | none => 1
    | some .feed => 2
    | some .asmReset => 1
    | some .prepare => 5 + (bs.getD 3 0).toNat
    | some .validate => 1
    | some .frameWrite => 72
    | some .frameRead => 1
    | some .checksum => 2 + (bs.getD 0 0).toNat
    | some .obfuscate => 2 + (bs.getD 0 0).toNat
    | some .deobfuscate => 2 + (bs.getD 0 0).toNat
    | some .setKey => 17
    | some .regRead => 2
    | some .regWrite => 3

/-- R77: the length byte of a counted sequence. -/
def lengthByte (d : List Byte) : Byte := BitVec.ofNat 8 d.length

/-- R76: the request packet of an instruction. -/
def encode : Instr → List Byte
  | .feed b => [0x01, b]
  | .asmReset => [0x02]
  | .prepare src tgt ty p => 0x10 :: src :: tgt :: ty :: lengthByte p :: p
  | .validate => [0x11]
  | .frameWrite f => 0x12 :: f.toList
  | .frameRead => [0x13]
  | .checksum d => 0x20 :: lengthByte d :: d
  | .obfuscate d => 0x21 :: lengthByte d :: d
  | .deobfuscate d => 0x22 :: lengthByte d :: d
  | .setKey k => 0x30 :: k.toList
  | .regRead a => [0x31, a]
  | .regWrite a v => [0x32, a, v]

/-- R76, column "packet length". -/
def Instr.packetSize : Instr → Nat
  | .feed _ => 2
  | .asmReset => 1
  | .prepare _ _ _ p => 5 + p.length
  | .validate => 1
  | .frameWrite _ => 72
  | .frameRead => 1
  | .checksum d => 2 + d.length
  | .obfuscate d => 2 + d.length
  | .deobfuscate d => 2 + d.length
  | .setKey _ => 17
  | .regRead _ => 2
  | .regWrite _ _ => 3

/-- The first `n` bytes of a number whose bits 7..0 are the first byte, bits 15..8 the second, and so on. -/
def bytesOfNat : Nat → Nat → List Byte
  | 0, _ => []
  | n + 1, w => BitVec.ofNat 8 w :: bytesOfNat n (w / 256)

/-- R76, R77: the longest packet is a PREPARE with `n` = 255. -/
def longestPacket : Nat := 260

/-- An instruction given as the opcode table numbers its bits, laid out as bytes in arrival order; every bit from
`nbits` on is 0. -/
def tableBytes (nbits w : Nat) : List Byte := bytesOfNat longestPacket (w % 2 ^ nbits)

/-- The instruction the decoder reads from a word numbered as spec/opcode_table.json numbers it. -/
def decodeTableWord (nbits w : Nat) : Option Instr :=
  match decode (tableBytes nbits w) with
  | .command i _ => some i
  | _ => none

/-- The bytes of the first packet of a byte string (R78). -/
def firstPacket (bs : List Byte) : List Byte := bs.take (packetLength bs)

/-- The bytes after the first packet of a byte string (R78). -/
def afterFirstPacket (bs : List Byte) : List Byte := bs.drop (packetLength bs)

end Sys2Proof
end

