-- ==== Sys2Proof/Config.lean ====
section
/-! DEFINITION. What is fixed for one chip: the sizes of the wire format (spec/00_scope.md R6) and the parameters the
spec leaves OPEN (R7), each an opaque constant with no body, so that no proof can see a value of it. The sentinel, the
broadcast id, the checksum's seed and polynomial and the rotate distance stand in Machine/Ops.lean. -/

namespace Sys2Proof

/-- R6 HDR_SIZE: start, source, target, type, declaredSize. -/
abbrev hdrSize : Nat := 5
/-- R6 PAYLOAD_CAP. -/
abbrev payloadCap : Nat := 64
/-- R6 CRC_SIZE. -/
abbrev crcSize : Nat := 2
/-- R6 FRAME_SIZE. -/
abbrev frameSize : Nat := 71
/-- R6 PAYLOAD_OFF: the frame offset of payload byte 0. -/
abbrev payloadOff : Nat := 5
/-- R6 CRC_OFF: the frame offset of the first checksum byte. -/
abbrev crcOff : Nat := 69
/-- R6 CRC_COVER: the checksum covers offsets 0 to 68. -/
abbrev crcCover : Nat := 69
/-- R6 KEY_LEN. -/
abbrev keyLen : Nat := 16

/-- R7 KEY_RESET (D13, N2): KEY after reset, OPEN; one value per link, so that nothing says two blocks share a key at
reset. Log 1. -/
opaque Config.keyReset : Nat → Key
/-- R7 LOCAL_ID_RESET (D14), OPEN, one value per link. Log 1. -/
opaque Config.localIdReset : Nat → Byte
/-- R7 DEFAULT_TARGET_RESET (D14), OPEN, one value per link. Log 1. -/
opaque Config.defaultTargetReset : Nat → Byte
/-- R7 TIMEOUT_MS (D19): the host's stall threshold in milliseconds, OPEN; the block never reads it. -/
opaque Config.timeoutMs : Nat

end Sys2Proof
end

