-- ==== Sys2Proof/Machine/State.lean ====
section
/-! DEFINITION. The state of one block instance (spec/10_state.md R20, every element of its table), the two ends of its
command port (spec/30_encoding.md R75, R80), the reasons a step can stop, and the state after reset
(spec/70_reset_and_hazards.md R250). -/

namespace Sys2Proof.Machine

/-- R24: the assembler's four states, in the 2-bit register ASM_STATE; `AsmState.code` is their encoding. -/
inductive AsmState where
  /-- No frame in progress. -/
  | waitStart
  /-- Header bytes 1 to 4 being stored. -/
  | readHeader
  /-- Frame offsets 5 to 68 being stored. -/
  | readPayload
  /-- Frame offsets 69 and 70 being stored. -/
  | readCrc
  deriving DecidableEq, Repr

/-- R20: the whole state of the block, and the port's request and response streams. -/
structure State where
  /-- ASM_STATE (R24). -/
  asmState : AsmState
  /-- ASM_COUNT, 7 bits (R25). -/
  asmCount : BitVec 7
  /-- ASM_BUF[0..70] (R27). -/
  asmBuf : Frame
  /-- FRAME_BUF[0..70] (R28). -/
  frameBuf : Frame
  /-- KEY[0..15] (R29). -/
  key : Key
  /-- LOCAL_ID (R30). -/
  localId : Byte
  /-- DEFAULT_TARGET (R31). -/
  defaultTarget : Byte
  /-- CTRL (R32): bit 0 is FILTER_EN, bits 7:1 are reserved. -/
  ctrl : Byte
  /-- The request bytes at the port that the block has not taken yet, in arrival order: whole packets with no gap or
  delimiter (R75, R78). The model's own field (log 2). -/
  requests : List Byte
  /-- The response packets sent so far, the oldest first: part of a run's observation (R80, R244). The model's own field
  (log 2). -/
  responses : List Packet
  deriving DecidableEq, Repr

/-- R220, R244: the block has no traps, nothing is fatal and the block never halts, so there is no fault. -/
inductive Fault where
  deriving DecidableEq, Repr

/-- The reasons the model has no next state. -/
inductive Refusal where
  /-- Raised by `exec` for a command that has no meaning yet; safe. No arm raises it. -/
  | notModelled (mnemonic : String)
  /-- Raised by `step` when the request bytes end inside a packet: R88 says a model must refuse them, not run or pad
  them; safe. -/
  | truncatedPacket
  deriving DecidableEq, Repr

/-- R250: every state element at its reset value, for the block of one link; the port idle. -/
def State.resetOf (link : Nat) : State where
  asmState := .waitStart
  asmCount := 0
  asmBuf := Vector.replicate 71 0
  frameBuf := Vector.replicate 71 0
  key := Config.keyReset link
  localId := Config.localIdReset link
  defaultTarget := Config.defaultTargetReset link
  ctrl := 0
  requests := []
  responses := []

/-- R250: the machine right after reset. -/
def State.reset : State := State.resetOf 0

end Sys2Proof.Machine
end

