-- ==== Sys2Proof/Machine/Flags.lean ====
section
/-! DEFINITION. The block has no flags and no condition codes (spec/10_state.md R23): a command's only outcome is the
status code of its own response. The codes (spec/30_encoding.md R82) and the encoding of the assembler state
(spec/10_state.md R24) stand here. -/

namespace Sys2Proof.Machine

/-- R82: the outcomes a response can report. -/
inductive Status where
  /-- The command did its work. -/
  | ok
  /-- FEED consumed the byte and completed no frame. -/
  | incomplete
  /-- VALIDATE found a start byte other than 0xAA. -/
  | invalidStart
  /-- The recomputed checksum differs from the stored one. -/
  | invalidChecksum
  /-- Checksum-valid, filter enabled, target neither LOCAL_ID nor 0xFF. -/
  | misaddressed
  /-- PREPARE with a payload length above 64. -/
  | oversize
  /-- The opcode is not defined. -/
  | illegalCommand
  /-- REG_READ or REG_WRITE of an unmapped or read-only address. -/
  | badRegister
  deriving DecidableEq, Repr

/-- R82: the status byte. -/
def Status.code : Status → Byte
  | .ok => 0x00
  | .incomplete => 0x01
  | .invalidStart => 0x02
  | .invalidChecksum => 0x03
  | .misaddressed => 0x04
  | .oversize => 0x05
  | .illegalCommand => 0x06
  | .badRegister => 0x07

/-- R24: the value of ASM_STATE, 2 bits. -/
def AsmState.code : AsmState → BitVec 2
  | .waitStart => 0
  | .readHeader => 1
  | .readPayload => 2
  | .readCrc => 3

end Sys2Proof.Machine
end

