-- ==== Sys2Proof/Machine/Ops.lean ====
section
/-! DEFINITION. The shared operations: reading and writing a buffer (spec/00_scope.md R11), rotation (R9), ending a
command with a response (R12; spec/30_encoding.md R80) and ending it with an error (spec/60_exceptions.md R220: the block
has no exceptions, an error is a status code in the failing command's response). -/

namespace Sys2Proof.Machine

/-- R6 SENTINEL: the value of frame byte 0. -/
def sentinel : Byte := 0xAA

/-- R6 BROADCAST: the target id that means all nodes. -/
def broadcast : Byte := 0xFF

/-- R6 CRC_SEED. -/
def crcSeed : Word16 := 0xFFFF

/-- R6 CRC_POLY. -/
def crcPoly : Word16 := 0x1021

/-- R6 ROT: the obfuscator's rotate distance in bits. -/
def rot : Nat := 3

/-- R9 `rotl8`, for 0 < n < 8. -/
def rotl8 (v : Byte) (n : Nat) : Byte := (v <<< n) ||| (v >>> (8 - n))

/-- R9 `rotr8`, for 0 < n < 8. -/
def rotr8 (v : Byte) (n : Nat) : Byte := (v >>> n) ||| (v <<< (8 - n))

/-- R13 `le16`: a 16-bit value as two bytes, the low byte first (R51, R54). -/
def le16 (v : Word16) : List Byte := [v.extractLsb' 0 8, v.extractLsb' 8 8]

/-- R13 `from_le16`: `b0 | (b1 << 8)`. -/
def fromLe16 (b0 b1 : Byte) : Word16 := b0.setWidth 16 ||| (b1.setWidth 16 <<< 8)

/-- R11 `MemRead(S, a, n)`: the `len` bytes of a buffer at offsets `a` to `a+len-1`. -/
def memRead {n : Nat} (buf : Vector Byte n) (a len : Nat) : List Byte := (buf.toList.drop a).take len

/-- R11 `MemWrite(S, a, n, v)`: the bytes `v` at offsets `a` on; every other offset keeps its byte. -/
def memWrite {n : Nat} (buf : Vector Byte n) (a : Nat) (v : List Byte) : Vector Byte n :=
  Vector.ofFn fun i => if a ≤ i.val ∧ i.val < a + v.length then v.getD (i.val - a) 0 else buf[i.val]

/-- R170, R180: a buffer filled with zeros. -/
def zeroFrame : Frame := Vector.replicate 71 0

/-- R12, R80: end the command with one response packet, the status byte and then the data. -/
def respond (st : Status) (data : List Byte) (s : State) : State :=
  { s with responses := s.responses ++ [st.code :: data] }

/-- R220, R221: an error ends the command with its status code alone; the block stores nothing of it and goes on. -/
def endWithError (st : Status) (s : State) : State := respond st [] s

/-- R79: an illegal opcode changes no state and is answered ILLEGAL_COMMAND. -/
def answerIllegal (s : State) : State := endWithError .illegalCommand s

end Sys2Proof.Machine
end

