-- ==== Sys2Proof/Machine/Operands.lean ====
section
/-! DEFINITION. The one operand form that names state: a register address (spec/10_state.md R33). Every other operand
of a command is an immediate byte or byte sequence (spec/30_encoding.md R77). -/

namespace Sys2Proof.Machine

/-- R32: CTRL as it reads, with the reserved bits 7:1 as 0. -/
def ctrlValue (s : State) : Byte := s.ctrl &&& 0x01

/-- R32: the field FILTER_EN, CTRL bit 0. -/
def filterEn (s : State) : Bool := s.ctrl.getLsbD 0

/-- R33, column "REG_READ returns": the byte at a register address; none where the answer is BAD_REGISTER. -/
def readReg (s : State) (a : Byte) : Option Byte :=
  if a = 0x00 then some (s.asmState.code.setWidth 8)
  else if a = 0x01 then some (s.asmCount.setWidth 8)
  else if a = 0x02 then some (ctrlValue s)
  else if a = 0x03 then some s.localId
  else if a = 0x04 then some s.defaultTarget
  else if h : 0x10 ≤ a.toNat ∧ a.toNat ≤ 0x1F then some (s.key[a.toNat - 0x10]'(by omega))
  else none

/-- R33, column "REG_WRITE": the state after a register write; none where the answer is BAD_REGISTER. -/
def writeReg (s : State) (a v : Byte) : Option State :=
  if a = 0x02 then some { s with ctrl := v &&& 0x01 }
  else if a = 0x03 then some { s with localId := v }
  else if a = 0x04 then some { s with defaultTarget := v }
  else none

end Sys2Proof.Machine
end

