-- ==== Sys2Proof/Machine/Checksum.lean ====
section
/-! DEFINITION. The checksum engine (spec/40_checksum.md R100 to R105) and its command CHECKSUM. -/

namespace Sys2Proof.Machine

/-- R100: one of the 8 rounds: shift left, and XOR the polynomial if the bit shifted out was 1. -/
def crcRound (r : Word16) : Word16 := if r.getLsbD 15 then (r <<< 1) ^^^ crcPoly else r <<< 1

/-- R100: XOR one byte into bits 15:8 of the register, then 8 rounds. -/
def crcByte (r : Word16) (b : Byte) : Word16 := crcRound^[8] (r ^^^ (b.setWidth 16 <<< 8))

/-- R100's procedure with the register started at `seed`. -/
def crcFrom (seed : Word16) (s : List Byte) : Word16 := s.foldl crcByte seed

/-- R100 `crc16`. -/
def crc16 (s : List Byte) : Word16 := crcFrom crcSeed s

/-- R104 `crc0`: the procedure started at 0x0000. -/
def crc0 (s : List Byte) : Word16 := crcFrom 0 s

/-- R105 CHECKSUM: the checksum of the operand bytes, low byte first. No state is written. -/
def execChecksum (d : List Byte) (s : State) : Host.Outcome State Fault Refusal :=
  .next (respond .ok (le16 (crc16 d)) s)

end Sys2Proof.Machine
end

