-- ==== Sys2Proof/Machine/Frame.lean ====
section
/-! DEFINITION. The fields of a frame in the wire format (spec/30_encoding.md R70, R71) and the closed enumeration of
message kinds (R73), which no command checks (R74). -/

namespace Sys2Proof.Machine

/-- R70 offset 0. -/
def frameStart (f : Frame) : Byte := f[0]
/-- R70 offset 1: the sender's node id; stored, never checked (R71). -/
def frameSource (f : Frame) : Byte := f[1]
/-- R70 offset 2: the recipient's node id, or 0xFF for all nodes. -/
def frameTarget (f : Frame) : Byte := f[2]
/-- R70 offset 3: the message-kind tag; stored, never checked (R74). -/
def frameType (f : Frame) : Byte := f[3]
/-- R70 offset 4: informational only (R71, R154). -/
def frameDeclaredSize (f : Frame) : Byte := f[4]
/-- R70 offsets 5 to 68. -/
def framePayload (f : Frame) : List Byte := memRead f payloadOff payloadCap
/-- R51, R70 offsets 69 and 70: the checksum a frame carries, little-endian. -/
def frameChecksum (f : Frame) : Word16 := fromLe16 f[69] f[70]

/-- R73: the message kinds. -/
inductive MessageKind where
  | request | accept | refuse | telemetry | command | statusReport | error | emergency | systemCommand | systemInfo
  | systemHeartbeat
  deriving DecidableEq, Repr

/-- R73: the tag of a message kind. -/
def MessageKind.tag : MessageKind → Byte
  | .request => 0x01
  | .accept => 0x02
  | .refuse => 0x03
  | .telemetry => 0x04
  | .command => 0x05
  | .statusReport => 0x42
  | .error => 0x65
  | .emergency => 0x66
  | .systemCommand => 0xC9
  | .systemInfo => 0xCA
  | .systemHeartbeat => 0xCB

/-- R73: all message kinds. -/
def MessageKind.all : List MessageKind :=
  [.request, .accept, .refuse, .telemetry, .command, .statusReport, .error, .emergency, .systemCommand, .systemInfo,
    .systemHeartbeat]

/-- R73, R74: the message kind of a tag; none for a value outside the enumeration, which every command accepts. -/
def MessageKind.ofTag (b : Byte) : Option MessageKind := MessageKind.all.find? fun k => k.tag == b

end Sys2Proof.Machine
end

