-- ==== Sys2Proof/Machine/Obfuscator.lean ====
section
/-! DEFINITION. The obfuscator and de-obfuscator (spec/41_obfuscator.md R120 to R131) and the commands OBFUSCATE,
DEOBFUSCATE and SET_KEY. -/

namespace Sys2Proof.Machine

/-- R120, R121: the key byte for offset `i`, `k[i mod 16]`. -/
def keyByte (k : Key) (i : Nat) : Byte := k[i % 16]'(Nat.mod_lt i (by decide))

/-- R120 `obf`: XOR the key byte, then rotate left by 3. -/
def obf (s : List Byte) (k : Key) : List Byte := s.mapIdx fun i b => rotl8 (b ^^^ keyByte k i) rot

/-- R121 `deobf`: rotate right by 3, then XOR the key byte. -/
def deobf (s : List Byte) (k : Key) : List Byte := s.mapIdx fun i b => rotr8 b rot ^^^ keyByte k i

/-- R125 OBFUSCATE: `obf` of the operand bytes under KEY as it is now. No state is written. -/
def execObfuscate (d : List Byte) (s : State) : Host.Outcome State Fault Refusal :=
  .next (respond .ok (obf d s.key) s)

/-- R126 DEOBFUSCATE: `deobf` of the operand bytes under KEY as it is now. No state is written. -/
def execDeobfuscate (d : List Byte) (s : State) : Host.Outcome State Fault Refusal :=
  .next (respond .ok (deobf d s.key) s)

/-- R130 SET_KEY: all 16 bytes of KEY in one step. -/
def execSetKey (k : Key) (s : State) : Host.Outcome State Fault Refusal :=
  .next (respond .ok [] { s with key := k })

end Sys2Proof.Machine
end

