-- ==== Sys2Proof/Machine/Codec.lean ====
section
/-! DEFINITION. The frame codec (spec/42_codec.md R140 to R161): frame construction, validation with the address
filter, and the commands PREPARE, VALIDATE, FRAME_WRITE and FRAME_READ. -/

namespace Sys2Proof.Machine

/-- R140: the 69 plaintext bytes `P`: the header, the payload and zeros up to the payload capacity. -/
def plainFrame (src tgt ty : Byte) (p : List Byte) : List Byte :=
  [sentinel, src, tgt, ty, BitVec.ofNat 8 p.length] ++ p ++ List.replicate (payloadCap - p.length) 0

/-- R140: the 71 wire bytes `W` of the plaintext bytes `P` under a key: checksum over the plaintext, then obfuscation
of the payload. -/
def wireForm (plain : List Byte) (k : Key) : List Byte :=
  plain.take payloadOff ++ obf (plain.drop payloadOff) k ++ le16 (crc16 plain)

/-- R140 PREPARE. OVERSIZE writes no state. -/
def execPrepare (src tgt ty : Byte) (p : List Byte) (s : State) : Host.Outcome State Fault Refusal :=
  if p.length > payloadCap then .next (endWithError .oversize s)
  else
    let w := wireForm (plainFrame src tgt ty p) s.key
    .next (respond .ok w { s with frameBuf := memWrite s.frameBuf 0 w })

/-- R149: a frame with its payload de-obfuscated in place. -/
def deobfFrame (f : Frame) (k : Key) : Frame := memWrite f payloadOff (deobf (framePayload f) k)

/-- R103: the checksum of a frame's plaintext bytes, offsets 0 to 68. -/
def frameCrc (f : Frame) : Word16 := crc16 (memRead f 0 crcCover)

/-- R152 `accept`: the target is this node or the broadcast id. -/
def accept (s : State) (t : Byte) : Bool := t == s.localId || t == broadcast

/-- R149 `checks(F)`: the status of a frame, tried in the order of R153, and the frame as it stands after validation. -/
def checks (s : State) (f : Frame) : Status × Frame :=
  if frameStart f ≠ sentinel then (.invalidStart, f)
  else
    let f' := deobfFrame f s.key
    if frameCrc f' ≠ frameChecksum f then (.invalidChecksum, f')
    else if filterEn s && !accept s (frameTarget f) then (.misaddressed, f')
    else (.ok, f')

/-- R81: the response to a validation: the frame after OK, the status alone otherwise. -/
def respondFrame (st : Status) (f : Frame) (s : State) : State :=
  if st = .ok then respond .ok f.toList s else endWithError st s

/-- R150 VALIDATE: validate FRAME_BUF in place. -/
def execValidate (s : State) : Host.Outcome State Fault Refusal :=
  let r := checks s s.frameBuf
  .next (respondFrame r.1 r.2 { s with frameBuf := r.2 })

/-- R160 FRAME_WRITE: load FRAME_BUF; no field is checked. -/
def execFrameWrite (f : Frame) (s : State) : Host.Outcome State Fault Refusal :=
  .next (respond .ok [] { s with frameBuf := memWrite s.frameBuf 0 f.toList })

/-- R161 FRAME_READ: answer FRAME_BUF. No state is written. -/
def execFrameRead (s : State) : Host.Outcome State Fault Refusal :=
  .next (respond .ok (memRead s.frameBuf 0 frameSize) s)

end Sys2Proof.Machine
end

