-- ==== Sys2Proof/Machine/Assembler.lean ====
section
/-! DEFINITION. The frame assembler (spec/43_assembler.md R170 to R181) and its commands FEED and ASM_RESET. -/

namespace Sys2Proof.Machine

/-- R170, `WaitStart` on the sentinel: clear the buffer, store the sentinel as byte 0, go to `ReadHeader`. -/
def startAssembly (s : State) : State :=
  { s with asmBuf := memWrite zeroFrame 0 [sentinel], asmCount := 1, asmState := .readHeader }

/-- R170: append a byte at ASM_BUF[ASM_COUNT]. -/
def storeByte (b : Byte) (s : State) : State := { s with asmBuf := memWrite s.asmBuf s.asmCount.toNat [b] }

/-- R170: the cursor after a byte, `c`. -/
def nextCount (s : State) : Nat := s.asmCount.toNat + 1

/-- R170: append a byte and advance the cursor to `c`; the state moves to `next` on the byte that makes `c` reach
`limit`. -/
def appendByte (b : Byte) (limit : Nat) (next : AsmState) (s : State) : State :=
  { storeByte b s with
    asmCount := BitVec.ofNat 7 (nextCount s)
    asmState := if nextCount s = limit then next else s.asmState }

/-- R170, the 71st byte: validate the assembled frame in place and return to `WaitStart`, win or lose. -/
def completeFrame (s : State) : State :=
  let r := checks s s.asmBuf
  respondFrame r.1 r.2 { s with asmBuf := r.2, asmCount := 0, asmState := .waitStart }

/-- R170 FEED: consume one byte of the received stream. -/
def execFeed (b : Byte) (s : State) : Host.Outcome State Fault Refusal :=
  match s.asmState with
  | .waitStart =>
    if b = sentinel then .next (respond .incomplete [] (startAssembly s)) else .next (respond .incomplete [] s)
  | .readHeader => .next (respond .incomplete [] (appendByte b payloadOff .readPayload s))
  | .readPayload => .next (respond .incomplete [] (appendByte b crcOff .readCrc s))
  | .readCrc =>
    if nextCount s < frameSize then .next (respond .incomplete [] (appendByte b frameSize .readCrc s))
    else .next (completeFrame (storeByte b s))

/-- R180 ASM_RESET: discard the partial frame and return to `WaitStart`. -/
def execAsmReset (s : State) : Host.Outcome State Fault Refusal :=
  .next (respond .ok [] { s with asmBuf := zeroFrame, asmCount := 0, asmState := .waitStart })

end Sys2Proof.Machine
end

