-- ==== Sys2Proof/Machine/Registers.lean ====
section
/-! DEFINITION. Register access (spec/44_registers.md R200, R201): the commands REG_READ and REG_WRITE over the
register map of Machine/Operands.lean. -/

namespace Sys2Proof.Machine

/-- R200 REG_READ: the register's byte, or BAD_REGISTER. No state is written. -/
def execRegRead (a : Byte) (s : State) : Host.Outcome State Fault Refusal :=
  match readReg s a with
  | some v => .next (respond .ok [v] s)
  | none => .next (endWithError .badRegister s)

/-- R201 REG_WRITE: write the register, or BAD_REGISTER with no state written. -/
def execRegWrite (a v : Byte) (s : State) : Host.Outcome State Fault Refusal :=
  match writeReg s a v with
  | some s' => .next (respond .ok [] s')
  | none => .next (endWithError .badRegister s)

end Sys2Proof.Machine
end

