-- ==== Sys2Proof/Machine/Dispatch.lean ====
section
/-! DEFINITION. One arm per command: each calls its meaning. -/

namespace Sys2Proof.Machine

def exec (i : Instr) (s : State) : Host.Outcome State Fault Refusal :=
  match i with
  | .feed b => Sys2Proof.Machine.execFeed b s
  | .asmReset => Sys2Proof.Machine.execAsmReset s
  | .prepare src tgt ty p => Sys2Proof.Machine.execPrepare src tgt ty p s
  | .validate => Sys2Proof.Machine.execValidate s
  | .frameWrite f => Sys2Proof.Machine.execFrameWrite f s
  | .frameRead => Sys2Proof.Machine.execFrameRead s
  | .checksum d => Sys2Proof.Machine.execChecksum d s
  | .obfuscate d => Sys2Proof.Machine.execObfuscate d s
  | .deobfuscate d => Sys2Proof.Machine.execDeobfuscate d s
  | .setKey k => Sys2Proof.Machine.execSetKey k s
  | .regRead a => Sys2Proof.Machine.execRegRead a s
  | .regWrite a v => Sys2Proof.Machine.execRegWrite a v s

end Sys2Proof.Machine
end

