-- ==== Sys2Proof/Machine/Step.lean ====
section
/-! DEFINITION. One step: the block takes the packet at the front of its command port, executes it atomically and
answers it (spec/20_memory.md R58, R60; spec/30_encoding.md R75). -/

namespace Sys2Proof.Machine

/-- R60, R75, R79, R88: one command. With no packet at the port the block holds its state (R243, R251; log 4). -/
def step (s : State) : Host.Outcome State Fault Refusal :=
  match decode s.requests with
  | .noPacket => .next s
  | .command i rest => exec i { s with requests := rest }
  | .illegal _ rest => .next (answerIllegal { s with requests := rest })
  | .truncated => .refused .truncatedPacket

/-- The packet of a word numbered as spec/opcode_table.json numbers it, put at the front of the port, before any bytes
waiting there: the host sending that one packet next (log 3). -/
def State.withFetchWord (s : State) (nbits w : Nat) : State :=
  { s with requests := firstPacket (tableBytes nbits w) ++ s.requests }

end Sys2Proof.Machine
end

