-- ==== Sys2Proof/Machine/Pseudo.lean ====
section
/-! DEFINITION. The pseudo-commands (spec/30_encoding.md R85). A pseudo-command is not a command: it has no opcode, and
the block sees only its expansion. -/

namespace Sys2Proof.Machine

/-- R85: the seven pseudo-commands. -/
inductive Pseudo where
  | timeoutReset
  | filterOn
  | filterOff
  | setLocalId (id : Byte)
  | setDefaultTarget (id : Byte)
  | feedAll (bs : List Byte)
  | receive (f : Frame)
  deriving DecidableEq, Repr

/-- R85, column "expansion". -/
def Pseudo.expand : Pseudo → List Instr
  | .timeoutReset => [.asmReset]
  | .filterOn => [.regWrite 0x02 0x01]
  | .filterOff => [.regWrite 0x02 0x00]
  | .setLocalId id => [.regWrite 0x03 id]
  | .setDefaultTarget id => [.regWrite 0x04 id]
  | .feedAll bs => bs.map .feed
  | .receive f => [.frameWrite f, .validate]

end Sys2Proof.Machine
end

