-- ==== Sys2Proof/Machine/Run.lean ====
section
/-! DEFINITION. Sequences of commands (spec/20_memory.md R60; spec/60_exceptions.md R244): each command sees every effect
of the earlier ones. -/

namespace Sys2Proof.Machine

/-- R60: commands executed one after another; the run stops at a fault or a refusal. -/
def runCommands : List Instr → State → Host.Outcome State Fault Refusal
  | [], s => .next s
  | i :: is, s => match exec i s with
    | .next s' => runCommands is s'
    | .fault r => .fault r
    | .refused r => .refused r

/-- R75: the host sends request bytes to the port. -/
def State.send (packet : List Byte) (s : State) : State := { s with requests := s.requests ++ packet }

/-- R75, R244: a run as the host drives it: it sends one packet and the block takes it, again and again. -/
def runPackets : List Packet → State → Host.Outcome State Fault Refusal
  | [], s => .next s
  | p :: ps, s => match step (s.send p) with
    | .next s' => runPackets ps s'
    | .fault r => .fault r
    | .refused r => .refused r

/-- R244: a run is a finite sequence of request packets applied from the reset state. -/
def runFromReset (packets : List Packet) : Host.Outcome State Fault Refusal := runPackets packets State.reset

/-- R244: what a run shows: "the sequence of response packets together with the final state". -/
def observation (final : State) : List Packet × State := (final.responses, final)

end Sys2Proof.Machine
end

