-- ==== Sys2Proof/Machine/HostPort.lean ====
section
/-! DEFINITION. What acts on the block from outside beside its request packets: the platform's reset signal
(spec/70_reset_and_hazards.md R250), the host's timeout duty (spec/60_exceptions.md R236) and its boot order (R253). None
of it is part of `step`. -/

namespace Sys2Proof.Machine

/-- R250: the reset signal. Every state element takes its reset value. A command in progress is abandoned without a
response: its packet, the first at the port, is gone. Responses already sent stay with the host, and packets the host
has still to send stay with it too (log 5). -/
def resetSignal (link : Nat) (inProgress : Bool) (s : State) : State :=
  { State.resetOf link with
    requests := if inProgress then afterFirstPacket s.requests else s.requests
    responses := s.responses }

/-- R236: the command the host owes when `elapsedMs` have passed since the last FEED; none where it owes none. The
elapsed time is the host's measurement: the block has no clock (R240). -/
def timeoutDuty (elapsedMs : Nat) (s : State) : Option Instr :=
  if Config.timeoutMs < elapsedMs ∧ s.asmState ≠ .waitStart then some .asmReset else none

/-- R253: what the host sends before traffic: the key, the local id, the filter choice, the default target. -/
def bootSequence (k : Key) (localId : Byte) (filter : Bool) (defaultTarget : Byte) : List Instr :=
  .setKey k :: (Pseudo.setLocalId localId).expand ++ (if filter then Pseudo.filterOn else Pseudo.filterOff).expand ++
    (Pseudo.setDefaultTarget defaultTarget).expand

end Sys2Proof.Machine
end

