-- ==== Sys2Proof/Machine/Platform.lean ====
section
/-! DEFINITION. A platform of `nLinks` block instances, one per logical link (spec/10_state.md R34; spec/60_exceptions.md
R241; spec/00_scope.md R7 N_LINKS, here an argument). Each instance has its own port and its own state. -/

namespace Sys2Proof.Machine

/-- R34: one state per link; nothing is shared. -/
abbrev Platform (nLinks : Nat) := Vector State nLinks

/-- R250, R34: every instance at its own reset values. -/
def Platform.reset (nLinks : Nat) : Platform nLinks := Vector.ofFn fun k => State.resetOf k.val

/-- R34, R241: one instance takes a step; which one goes next is the hosts' choice (R61). -/
def Platform.stepLink {nLinks : Nat} (p : Platform nLinks) (k : Fin nLinks) :
    Host.Outcome (Platform nLinks) Fault Refusal :=
  match step p[k] with
  | .next s => .next (p.set k s)
  | .fault r => .fault r
  | .refused r => .refused r

end Sys2Proof.Machine
end

