-- ==== Sys2Proof/Machine/Text.lean ====
section
/-! DEFINITION. The mnemonic form of commands and pseudo-commands (spec/30_encoding.md R84, R85), printed and read. Numbers
are hexadecimal with `0x` or plain decimal; byte lists stand in square brackets, space-separated, in hexadecimal without
`0x`; `;` starts a comment. It is a host tool's form: the block sees packets only (log 15). -/

namespace Sys2Proof.Machine

/-- A hexadecimal digit. -/
def hexDigit (n : Nat) : Char := "0123456789ABCDEF".toList.getD n '?'

/-- A byte in a byte list (R84). -/
def hexByte (b : Byte) : List Char := [hexDigit (b.toNat / 16), hexDigit (b.toNat % 16)]

/-- A byte as a number (R84). -/
def hexNumber (b : Byte) : List Char := '0' :: 'x' :: hexByte b

/-- A byte list (R84). -/
def hexList (bs : List Byte) : List Char := '[' :: ((bs.map hexByte).intersperse [' ']).flatten ++ [']']

/-- Operands in the order R84 gives them, separated by a comma and a space. -/
def operandText (ops : List (List Char)) : List Char := ' ' :: (ops.intersperse [',', ' ']).flatten

/-- R84: the mnemonic form, as characters. -/
def instrText : Instr → List Char
  | .feed b => "FEED".toList ++ operandText [hexNumber b]
  | .asmReset => "ASM_RESET".toList
  | .prepare src tgt ty p =>
    "PREPARE".toList ++ operandText [hexNumber src, hexNumber tgt, hexNumber ty, hexList p]
  | .validate => "VALIDATE".toList
  | .frameWrite f => "FRAME_WRITE".toList ++ operandText [hexList f.toList]
  | .frameRead => "FRAME_READ".toList
  | .checksum d => "CHECKSUM".toList ++ operandText [hexList d]
  | .obfuscate d => "OBFUSCATE".toList ++ operandText [hexList d]
  | .deobfuscate d => "DEOBFUSCATE".toList ++ operandText [hexList d]
  | .setKey k => "SET_KEY".toList ++ operandText [hexList k.toList]
  | .regRead a => "REG_READ".toList ++ operandText [hexNumber a]
  | .regWrite a v => "REG_WRITE".toList ++ operandText [hexNumber a, hexNumber v]

/-- What a line of text is made of. -/
inductive Token where
  | word (cs : List Char)
  | comma
  | listStart
  | listEnd
  deriving DecidableEq, Repr

/-- A word read so far, put in front of the tokens after it. -/
def flushWord (acc : List Char) (ts : List Token) : List Token := if acc = [] then ts else .word acc.reverse :: ts

/-- R84: a line as tokens; a comment runs from `;` to the end of the line. -/
def lexLine : List Char → List Char → List Token
  | acc, [] => flushWord acc []
  | acc, c :: cs =>
    if c = ';' then flushWord acc []
    else if c = ' ' then flushWord acc (lexLine [] cs)
    else if c = ',' then flushWord acc (.comma :: lexLine [] cs)
    else if c = '[' then flushWord acc (.listStart :: lexLine [] cs)
    else if c = ']' then flushWord acc (.listEnd :: lexLine [] cs)
    else lexLine (c :: acc) cs

/-- The value of a digit in a base; hexadecimal letters may be capital or small. -/
def digitValue (base : Nat) (c : Char) : Option Nat :=
  let v := "0123456789ABCDEF".toList.idxOf c.toUpper
  if v < base then some v else none

/-- The value of a word of digits, the most significant first. -/
def digitsValue (base : Nat) : Nat → List Char → Option Nat
  | n, [] => some n
  | n, c :: cs => (digitValue base c).bind fun d => digitsValue base (n * base + d) cs

/-- A number that is a byte: at least one digit, at most 255. -/
def byteOfDigits (base : Nat) (cs : List Char) : Option Byte :=
  if cs = [] then none else (digitsValue base 0 cs).bind fun n => if n ≤ 255 then some (BitVec.ofNat 8 n) else none

/-- R84: a number, "hexadecimal with `0x` or plain decimal". -/
def readNumber : List Char → Option Byte
  | '0' :: 'x' :: cs => byteOfDigits 16 cs
  | cs => byteOfDigits 10 cs

/-- An operand as written. -/
inductive Operand where
  | number (b : Byte)
  | bytes (d : List Byte)
  deriving DecidableEq, Repr

/-- R84: the bytes of a list up to its closing bracket, and the tokens after it. -/
def readList : List Token → Option (List Byte × List Token)
  | .word w :: ts => (byteOfDigits 16 w).bind fun b => (readList ts).map fun (d, rest) => (b :: d, rest)
  | .listEnd :: ts => some ([], ts)
  | _ => none

/-- One operand, and the tokens after it. -/
def readOperand : List Token → Option (Operand × List Token)
  | .word w :: ts => (readNumber w).map fun b => (.number b, ts)
  | .listStart :: ts => (readList ts).map fun (d, rest) => (.bytes d, rest)
  | _ => none

/-- Operands separated by commas; the first argument bounds their number. -/
def readOperands : Nat → List Token → Option (List Operand)
  | 0, _ => none
  | n + 1, ts => (readOperand ts).bind fun (o, rest) => match rest with
    | [] => some [o]
    | .comma :: rest' => (readOperands n rest').map (o :: ·)
    | _ => none

/-- R84, R85: the forms without an operand. -/
def bareForm (m : List Char) : Option (List Instr) :=
  if m = "ASM_RESET".toList then some [.asmReset]
  else if m = "VALIDATE".toList then some [.validate]
  else if m = "FRAME_READ".toList then some [.frameRead]
  else if m = "TIMEOUT_RESET".toList then some Pseudo.timeoutReset.expand
  else if m = "FILTER_ON".toList then some Pseudo.filterOn.expand
  else if m = "FILTER_OFF".toList then some Pseudo.filterOff.expand
  else none

/-- R84, R85: the forms with one number. -/
def numberForm (m : List Char) (b : Byte) : Option (List Instr) :=
  if m = "FEED".toList then some [.feed b]
  else if m = "REG_READ".toList then some [.regRead b]
  else if m = "SET_LOCAL_ID".toList then some (Pseudo.setLocalId b).expand
  else if m = "SET_DEFAULT_TARGET".toList then some (Pseudo.setDefaultTarget b).expand
  else none

/-- A byte list of exactly the size a buffer operand has (R84: "exactly 71 bytes", "exactly 16 bytes"). -/
def wholeBuffer (n : Nat) (d : List Byte) : Option (Vector Byte n) :=
  if h : d.length = n then some ⟨d.toArray, by simpa using h⟩ else none

/-- R84, R85: the forms with one byte list. -/
def listForm (m : List Char) (d : List Byte) : Option (List Instr) :=
  if m = "FRAME_WRITE".toList then (wholeBuffer 71 d).map fun f => [.frameWrite f]
  else if m = "CHECKSUM".toList then some [.checksum d]
  else if m = "OBFUSCATE".toList then some [.obfuscate d]
  else if m = "DEOBFUSCATE".toList then some [.deobfuscate d]
  else if m = "SET_KEY".toList then (wholeBuffer 16 d).map fun k => [.setKey k]
  else if m = "FEED_ALL".toList then some (Pseudo.feedAll d).expand
  else if m = "RECEIVE".toList then (wholeBuffer 71 d).map fun f => (Pseudo.receive f).expand
  else none

/-- R84, R85: the commands a mnemonic with its operands stands for. -/
def assembleForm (m : List Char) : List Operand → Option (List Instr)
  | [] => bareForm m
  | [.number b] => numberForm m b
  | [.bytes d] => listForm m d
  | [.number a, .number v] => if m = "REG_WRITE".toList then some [.regWrite a v] else none
  | [.number src, .number tgt, .number ty, .bytes p] =>
    if m = "PREPARE".toList then some [.prepare src tgt ty p] else none
  | _ => none

/-- R84, R85: the commands a line stands for; a line with nothing but a comment stands for none. A command that has no
packet (R77) is not accepted. -/
def assembleLine (line : List Char) : Option (List Instr) :=
  match lexLine [] line with
  | [] => some []
  | .word m :: ts =>
    ((if ts = [] then some [] else readOperands ts.length ts).bind (assembleForm m)).filter
      fun is => is.all Instr.wellFormed
  | _ => none

end Sys2Proof.Machine
end

