-- ==== Sys2Proof/Safety.lean ====
section
/-! DEFINITION. What claims call a safe state and a legal answer: the invariant of the assembler's registers
(spec/10_state.md R26), the sentinel at the head of the assembly buffer (R27), the reserved bits of CTRL (R32), and the
form of every response (spec/30_encoding.md R80 to R83). -/

namespace Sys2Proof.Machine

/-- R26: the ASM_COUNT values that go with each ASM_STATE. -/
def countFits : AsmState → Nat → Bool
  | .waitStart, c => c = 0
  | .readHeader, c => 1 ≤ c ∧ c ≤ 4
  | .readPayload, c => 5 ≤ c ∧ c ≤ 68
  | .readCrc, c => 69 ≤ c ∧ c ≤ 70

/-- R80 to R83: a response packet is a defined status code, alone unless it is OK; the most data is 255 bytes. -/
def legalPacket : Packet → Bool
  | [] => false
  | st :: data => st.toNat ≤ 7 && (st == 0x00 || data.isEmpty) && data.length ≤ 255

/-- The invariant every command keeps. -/
structure State.Inv (s : State) : Prop where
  /-- R26. -/
  count : countFits s.asmState s.asmCount.toNat = true
  /-- R27: "Offset 0 holds the sentinel whenever ASM_COUNT ≥ 1". -/
  head : 1 ≤ s.asmCount.toNat → s.asmBuf[0] = 0xAA
  /-- R32: CTRL bits 7:1 are 0. -/
  reserved : s.ctrl &&& 0xFE = 0
  /-- R83: no response has a reserved status code; R81: a failure carries no data. -/
  answers : ∀ r ∈ s.responses, legalPacket r = true

/-- A response of status OK with `n` data bytes (R80). -/
def okData (n : Nat) (r : Packet) : Prop := r.head? = some 0x00 ∧ r.length = 1 + n

/-- R81: the responses each command may give. -/
def allowedResponse : Instr → Packet → Prop
  | .feed _, r => r = [0x01] ∨ okData 71 r ∨ r = [0x03] ∨ r = [0x04]
  | .asmReset, r => r = [0x00]
  | .prepare _ _ _ _, r => okData 71 r ∨ r = [0x05]
  | .validate, r => okData 71 r ∨ r = [0x02] ∨ r = [0x03] ∨ r = [0x04]
  | .frameWrite _, r => r = [0x00]
  | .frameRead, r => okData 71 r
  | .checksum _, r => okData 2 r
  | .obfuscate d, r => okData d.length r
  | .deobfuscate d, r => okData d.length r
  | .setKey _, r => r = [0x00]
  | .regRead _, r => okData 1 r ∨ r = [0x07]
  | .regWrite _ _, r => r = [0x00] ∨ r = [0x07]

end Sys2Proof.Machine
end

