-- ==== Sys2Proof/Certificates/Slice0/Obligations.lean ====
section
/-! DEFINITION. The statements for the provers, in the order of OBLIGATIONS.json. Spec rules are written out in the
statements; where a statement uses a function of the model (`crc16`, `checks`), another statement here says what that
function does. -/

open Sys2Proof Sys2Proof.Machine

namespace Sys2Proof.Rule

/-- R79's list of illegal opcode values. -/
def illegalOpcode (op : Byte) : Prop :=
  op = 0x00 ∨ (0x03 ≤ op ∧ op ≤ 0x0F) ∨ (0x14 ≤ op ∧ op ≤ 0x1F) ∨ (0x23 ≤ op ∧ op ≤ 0x2F) ∨ 0x33 ≤ op

/-- R78 with R76's opcodes, by value: the length of the packet that starts with `op` and goes on with `bs`. A length
byte that has not arrived counts as 0. -/
def lengthByOpcode (op : Byte) (bs : List Byte) : Nat :=
  if op = 0x01 then 2
  else if op = 0x02 then 1
  else if op = 0x10 then 5 + (bs.getD 3 0).toNat
  else if op = 0x11 then 1
  else if op = 0x12 then 72
  else if op = 0x13 then 1
  else if op = 0x20 ∨ op = 0x21 ∨ op = 0x22 then 2 + (bs.getD 0 0).toNat
  else if op = 0x30 then 17
  else if op = 0x31 then 2
  else if op = 0x32 then 3
  else 1

/-- R52: the bits of a byte, most significant first. -/
def bitsMsbFirst (b : Byte) : List Bool := (List.range 8).map fun j => b.getLsbD (7 - j)

/-- A bit-serial checksum register: shift left, and add the polynomial when the bit leaving differs from the data bit. -/
def serialStep (r : Word16) (bit : Bool) : Word16 := if r.getLsbD 15 != bit then (r <<< 1) ^^^ 0x1021 else r <<< 1

/-- One round of R100 by its own words. -/
def roundByRule (r : Word16) : Word16 := if r.getLsbD 15 = true then ((r <<< 1) &&& 0xFFFF) ^^^ 0x1021 else (r <<< 1) &&& 0xFFFF

/-- The answer R81 gives for a validation that ends in `st` with the frame `f`. -/
def validationAnswer (st : Status) (f : Frame) : Packet := if st = .ok then 0x00 :: f.toList else [st.code]

/-- R140's plaintext bytes 0 to 68. -/
def plaintext69 (src tgt ty : Byte) (p : List Byte) : List Byte :=
  0xAA :: src :: tgt :: ty :: BitVec.ofNat 8 p.length :: p ++ List.replicate (64 - p.length) 0x00

end Sys2Proof.Rule

open Sys2Proof.Rule

/-! ## Packets -/

/-- R76, R77: the decoder reads every packet back as the instruction it was made from, with every operand, and leaves
what follows. -/
def Obligations.DecodeOfEncode : Prop :=
  ∀ (i : Instr) (rest : List Byte), i.wellFormed = true → decode (encode i ++ rest) = .command i rest

/-- R76, R86: a packet that decodes to a command is that command's encoding, so no two packets mean the same. -/
def Obligations.EncodeOfDecode : Prop :=
  ∀ (bs rest : List Byte) (i : Instr), decode bs = .command i rest → i.wellFormed = true ∧ bs = encode i ++ rest

/-- R79. -/
def Obligations.IllegalOpcodeAnswered : Prop :=
  (∀ (op : Byte) (rest : List Byte), decode (op :: rest) = .illegal op rest ↔ illegalOpcode op) ∧
  ∀ (s : State) (op : Byte) (rest : List Byte), illegalOpcode op → s.requests = op :: rest →
    step s = .next { s with requests := rest, responses := s.responses ++ [[0x06]] }

/-- R78, R86: a whole packet decodes to a command or an illegal opcode, and exactly its own bytes are taken. -/
def Obligations.WholePacketDecodes : Prop :=
  ∀ (op : Byte) (bs : List Byte), lengthByOpcode op bs ≤ (op :: bs).length →
    (∃ i, decode (op :: bs) = .command i ((op :: bs).drop (lengthByOpcode op bs))) ∨
    decode (op :: bs) = .illegal op ((op :: bs).drop (lengthByOpcode op bs))

/-- R88. -/
def Obligations.TruncatedPacketRefused : Prop :=
  ∀ (s : State) (op : Byte) (bs : List Byte), s.requests = op :: bs → (op :: bs).length < lengthByOpcode op bs →
    decode s.requests = .truncated ∧ step s = .refused .truncatedPacket

/-- R76: words written out from the opcode map decode to the commands they stand for. -/
def Obligations.OpcodeMapWords : Prop :=
  decode [0x01, 0xAA] = .command (.feed 0xAA) [] ∧
  decode [0x02] = .command .asmReset [] ∧
  decode [0x10, 0x02, 0xFF, 0x04, 0x02, 0x55, 0x2A] = .command (.prepare 0x02 0xFF 0x04 [0x55, 0x2A]) [] ∧
  decode [0x11] = .command .validate [] ∧
  decode [0x20, 0x02, 0xAA, 0x01] = .command (.checksum [0xAA, 0x01]) [] ∧
  decode [0x22, 0x03, 0x0A, 0x1A, 0x0A] = .command (.deobfuscate [0x0A, 0x1A, 0x0A]) [] ∧
  decode [0x31, 0x1F] = .command (.regRead 0x1F) [] ∧
  decode [0x32, 0x03, 0x07] = .command (.regWrite 0x03 0x07) []

/-- R58, R60, R75: a step takes the decoded packet from the port and is that command's execution. -/
def Obligations.StepRunsDecoded : Prop :=
  ∀ (s : State) (i : Instr) (rest : List Byte), decode s.requests = .command i rest →
    step s = exec i { s with requests := rest }

/-- The model's reading of R243 and R251 (log 4): with no packet at the port a step leaves the state as it is. -/
def Obligations.IdlePortHoldsState : Prop :=
  ∀ s : State, s.requests = [] → step s = .next s

/-- R75, R244: a whole packet is always served: its bytes are taken and exactly one response is sent. -/
def Obligations.OneResponsePerPacket : Prop :=
  ∀ (s : State) (op : Byte) (bs : List Byte), s.requests = op :: bs → lengthByOpcode op bs ≤ (op :: bs).length →
    ∃ t r, step s = .next t ∧ t.requests = (op :: bs).drop (lengthByOpcode op bs) ∧
      t.responses = s.responses ++ [r]

/-- R81, R173: every command ends with one response, of a status and a length its row allows; FEED never answers
INVALID_START. -/
def Obligations.ResponsesPerCommand : Prop :=
  ∀ (i : Instr) (s : State), s.Inv →
    ∃ t r, exec i s = .next t ∧ t.requests = s.requests ∧ t.responses = s.responses ++ [r] ∧ allowedResponse i r

/-- R58, R60, R75, R244: a run driven packet by packet is the run of its commands. -/
def Obligations.PacketRunIsCommandRun : Prop :=
  ∀ (is : List Instr) (s : State), (∀ i ∈ is, i.wellFormed = true) → s.requests = [] →
    runPackets (is.map encode) s = runCommands is s

/-! ## Checksum engine -/

/-- R100, R101: the empty sequence gives the seed, and each byte is XORed into bits 15:8 and followed by 8 rounds. -/
def Obligations.ChecksumProcedure : Prop :=
  crc16 [] = 0xFFFF ∧
  ∀ (d : List Byte) (b : Byte), crc16 (d ++ [b]) =
    roundByRule (roundByRule (roundByRule (roundByRule (roundByRule (roundByRule (roundByRule (roundByRule
      (crc16 d ^^^ (b.setWidth 16 <<< 8)))))))))

/-- R52: the engine is the bit-serial register fed with the data bits, most significant first. -/
def Obligations.ChecksumIsBitSerial : Prop :=
  ∀ d : List Byte, crc16 d = (d.flatMap bitsMsbFirst).foldl serialStep 0xFFFF

/-- R104 law 1. -/
def Obligations.ChecksumAffine : Prop :=
  ∀ x e : List Byte, x.length = e.length → crc16 (List.zipWith (· ^^^ ·) x e) = crc16 x ^^^ crc0 e

/-- R104 law 2: a change of one byte, or of two adjacent bytes, anywhere in a sequence changes the checksum. -/
def Obligations.LocalErrorsChangeChecksum : Prop :=
  (∀ (l r : List Byte) (b c : Byte), b ≠ c → crc16 (l ++ b :: r) ≠ crc16 (l ++ c :: r)) ∧
  ∀ (l r : List Byte) (b b' c c' : Byte), (b, b') ≠ (c, c') →
    crc16 (l ++ b :: b' :: r) ≠ crc16 (l ++ c :: c' :: r)

/-- R105: always OK, the checksum low byte first, nothing else changed. -/
def Obligations.ChecksumCommand : Prop :=
  ∀ (d : List Byte) (s : State), exec (.checksum d) s =
    .next { s with responses := s.responses ++ [[0x00, (crc16 d).extractLsb' 0 8, (crc16 d).extractLsb' 8 8]] }

/-! ## Obfuscator -/

/-- R120, R125: byte `i` of the answer is the rotation left by 3 of `d[i] ^ KEY[i mod 16]`; nothing else changes. -/
def Obligations.ObfuscateCommand : Prop :=
  ∀ (d : List Byte) (s : State), ∃ t : List Byte,
    exec (.obfuscate d) s = .next { s with responses := s.responses ++ [0x00 :: t] } ∧ t.length = d.length ∧
    ∀ (i : Nat) (h : i < d.length),
      t[i]? = some ((d[i] ^^^ s.key[i % 16]'(Nat.mod_lt i (by decide))).rotateLeft 3)

/-- R121, R126: byte `i` of the answer is the rotation right by 3 of `d[i]`, XOR `KEY[i mod 16]`; nothing else changes. -/
def Obligations.DeobfuscateCommand : Prop :=
  ∀ (d : List Byte) (s : State), ∃ t : List Byte,
    exec (.deobfuscate d) s = .next { s with responses := s.responses ++ [0x00 :: t] } ∧ t.length = d.length ∧
    ∀ (i : Nat) (h : i < d.length),
      t[i]? = some ((d[i].rotateRight 3) ^^^ s.key[i % 16]'(Nat.mod_lt i (by decide)))

/-- R122 law 2. -/
def Obligations.ObfuscationInverts : Prop :=
  ∀ (d : List Byte) (k : Key), deobf (obf d k) k = d ∧ obf (deobf d k) k = d

/-- R122 law 3. -/
def Obligations.WrongKeyLeavesDifference : Prop :=
  ∀ (d : List Byte) (k1 k2 : Key), (deobf (obf d k1) k2).length = d.length ∧
    ∀ (i : Nat) (h : i < d.length), (deobf (obf d k1) k2)[i]? =
      some (d[i] ^^^ k1[i % 16]'(Nat.mod_lt i (by decide)) ^^^ k2[i % 16]'(Nat.mod_lt i (by decide)))

/-- R130: all 16 bytes of KEY at once; nothing else changes but the response. -/
def Obligations.SetKeyCommand : Prop :=
  ∀ (k : Key) (s : State), exec (.setKey k) s = .next { s with key := k, responses := s.responses ++ [[0x00]] }

/-! ## Codec -/

/-- R140: OVERSIZE above 64 bytes with nothing written; otherwise all 71 bytes of FRAME_BUF: the header, the payload
and its zero padding obfuscated under KEY, and the checksum of the plaintext, low byte first; answered byte for byte. -/
def Obligations.PrepareCommand : Prop :=
  ∀ (src tgt ty : Byte) (p : List Byte) (s : State),
    (64 < p.length → exec (.prepare src tgt ty p) s = .next { s with responses := s.responses ++ [[0x05]] }) ∧
    (p.length ≤ 64 → ∃ w : Frame,
      exec (.prepare src tgt ty p) s =
        .next { s with frameBuf := w, responses := s.responses ++ [0x00 :: w.toList] } ∧
      w[0] = 0xAA ∧ w[1] = src ∧ w[2] = tgt ∧ w[3] = ty ∧ w[4] = BitVec.ofNat 8 p.length ∧
      (∀ (i : Nat) (h : i < 64), w[5 + i] =
        ((if h' : i < p.length then p[i] else 0x00) ^^^ s.key[i % 16]'(Nat.mod_lt i (by decide))).rotateLeft 3) ∧
      w[69] = (crc16 (plaintext69 src tgt ty p)).extractLsb' 0 8 ∧
      w[70] = (crc16 (plaintext69 src tgt ty p)).extractLsb' 8 8)

/-- R149, R152, R153: the status and the frame of a validation, in the order start, checksum, address. -/
def Obligations.ValidationChecks : Prop :=
  ∀ (s : State) (f : Frame),
    (f[0] ≠ 0xAA → checks s f = (.invalidStart, f)) ∧
    (f[0] = 0xAA → ∃ g : Frame,
      (∀ (i : Nat) (h : i < 71), i < 5 ∨ 69 ≤ i → g[i] = f[i]) ∧
      (∀ (i : Nat) (h : i < 64),
        g[5 + i] = f[5 + i].rotateRight 3 ^^^ s.key[i % 16]'(Nat.mod_lt i (by decide))) ∧
      checks s f =
        (if crc16 (g.toList.take 69) ≠ f[69].setWidth 16 ||| (f[70].setWidth 16 <<< 8) then (.invalidChecksum, g)
         else if s.ctrl.getLsbD 0 = true ∧ ¬(f[2] = s.localId ∨ f[2] = 0xFF) then (.misaddressed, g)
         else (.ok, g)))

/-- R150, with R82's codes: VALIDATE stores the validated frame, answers it after OK and the status alone otherwise. -/
def Obligations.ValidateCommand : Prop :=
  ∀ s : State, exec .validate s =
    .next { s with
      frameBuf := (checks s s.frameBuf).2
      responses := s.responses ++ [validationAnswer (checks s s.frameBuf).1 (checks s s.frameBuf).2] }

/-- R160, R161: FRAME_WRITE loads all 71 bytes unchecked; FRAME_READ answers them and changes no state. -/
def Obligations.FrameBufferAccess : Prop :=
  ∀ (f : Frame) (s : State),
    exec (.frameWrite f) s = .next { s with frameBuf := f, responses := s.responses ++ [[0x00]] } ∧
    exec .frameRead s = .next { s with responses := s.responses ++ [0x00 :: s.frameBuf.toList] }

/-- R155: a prepared frame still in FRAME_BUF, validated under the same KEY by a node that accepts its target, gives
back the plaintext, whatever else happened to the state in between. -/
def Obligations.PrepareThenValidate : Prop :=
  ∀ (src tgt ty : Byte) (p : List Byte) (s t u : State), p.length ≤ 64 →
    exec (.prepare src tgt ty p) s = .next t → u.frameBuf = t.frameBuf → u.key = t.key →
    (u.ctrl.getLsbD 0 = true → tgt = u.localId ∨ tgt = 0xFF) →
    ∃ g : Frame, g.toList = plaintext69 src tgt ty p ++
        [(crc16 (plaintext69 src tgt ty p)).extractLsb' 0 8, (crc16 (plaintext69 src tgt ty p)).extractLsb' 8 8] ∧
      exec .validate u = .next { u with frameBuf := g, responses := u.responses ++ [0x00 :: g.toList] }

/-- R104 law 3: one changed payload byte of a frame whose checksum is good always gives INVALID_CHECKSUM. -/
def Obligations.CorruptPayloadByteDetected : Prop :=
  ∀ (s : State) (f : Frame) (i : Nat) (h : i < 71) (b : Byte), s.frameBuf = f.set i b h → 5 ≤ i → i ≤ 68 → b ≠ f[i] →
    (checks s f).1 = .ok ∨ (checks s f).1 = .misaddressed →
    ∃ g : Frame, exec .validate s = .next { s with frameBuf := g, responses := s.responses ++ [[0x03]] }

/-- 90_conflicts.md C3: a frame prepared under one key and validated under another, with the filter off, is OK exactly
when the checksum from 0 of the key difference, repeated over the payload, is 0; otherwise it is INVALID_CHECKSUM. -/
def Obligations.KeyMismatchDetectedExactly : Prop :=
  ∀ (src tgt ty : Byte) (p : List Byte) (s t u : State), p.length ≤ 64 →
    exec (.prepare src tgt ty p) s = .next t → u.frameBuf = t.frameBuf → u.ctrl.getLsbD 0 = false →
    (checks u u.frameBuf).1 =
      if crc0 ((List.range 64).map fun i =>
          s.key[i % 16]'(Nat.mod_lt i (by decide)) ^^^ u.key[i % 16]'(Nat.mod_lt i (by decide))) = 0
      then .ok else .invalidChecksum

/-- R59, R260: validating twice de-obfuscates the payload twice. -/
def Obligations.SecondValidateDeobfuscatesAgain : Prop :=
  ∀ s : State, s.frameBuf[0] = 0xAA → ∃ t : State, runCommands [.validate, .validate] s = .next t ∧
    ∀ (i : Nat) (h : i < 64), t.frameBuf[5 + i] =
      (s.frameBuf[5 + i].rotateRight 3 ^^^ s.key[i % 16]'(Nat.mod_lt i (by decide))).rotateRight 3 ^^^
        s.key[i % 16]'(Nat.mod_lt i (by decide))

/-! ## Assembler -/

/-- R170, R172: what one byte does in each assembler state; every other state element is unchanged. -/
def Obligations.FeedCommand : Prop :=
  ∀ (b : Byte) (s : State),
    (s.asmState = .waitStart → b ≠ 0xAA → exec (.feed b) s = .next { s with responses := s.responses ++ [[0x01]] }) ∧
    (s.asmState = .waitStart → b = 0xAA → exec (.feed b) s =
      .next { s with
        asmBuf := (Vector.replicate 71 0x00).set 0 0xAA
        asmCount := 1
        asmState := .readHeader
        responses := s.responses ++ [[0x01]] }) ∧
    (∀ h : 1 ≤ s.asmCount.toNat ∧ s.asmCount.toNat ≤ 4, s.asmState = .readHeader → exec (.feed b) s =
      .next { s with
        asmBuf := s.asmBuf.set s.asmCount.toNat b (by omega)
        asmCount := s.asmCount + 1
        asmState := if s.asmCount = 4 then .readPayload else .readHeader
        responses := s.responses ++ [[0x01]] }) ∧
    (∀ h : 5 ≤ s.asmCount.toNat ∧ s.asmCount.toNat ≤ 68, s.asmState = .readPayload → exec (.feed b) s =
      .next { s with
        asmBuf := s.asmBuf.set s.asmCount.toNat b (by omega)
        asmCount := s.asmCount + 1
        asmState := if s.asmCount = 68 then .readCrc else .readPayload
        responses := s.responses ++ [[0x01]] }) ∧
    (s.asmCount.toNat = 69 → s.asmState = .readCrc → exec (.feed b) s =
      .next { s with
        asmBuf := s.asmBuf.set 69 b
        asmCount := 70
        responses := s.responses ++ [[0x01]] }) ∧
    (s.asmCount.toNat = 70 → s.asmState = .readCrc → exec (.feed b) s =
      .next { s with
        asmBuf := (checks s (s.asmBuf.set 70 b)).2
        asmCount := 0
        asmState := .waitStart
        responses := s.responses ++
          [validationAnswer (checks s (s.asmBuf.set 70 b)).1 (checks s (s.asmBuf.set 70 b)).2] })

/-- R170, R176 item 4: from `WaitStart`, the 71 bytes of a frame give 70 times INCOMPLETE and then that frame's own
`checks` result, whatever the assembly buffer held. -/
def Obligations.FeedWholeFrame : Prop :=
  ∀ (s : State) (f : Frame), s.asmState = .waitStart → f[0] = 0xAA →
    runCommands (f.toList.map .feed) s =
      .next { s with
        asmBuf := (checks s f).2
        asmCount := 0
        responses := s.responses ++ List.replicate 70 [0x01] ++ [validationAnswer (checks s f).1 (checks s f).2] }

/-- R175: once an assembly runs, fewer bytes than it still needs leave it unfinished, whatever their values: each is
stored at the next offset and answered INCOMPLETE, and the assembler stays out of `WaitStart`. -/
def Obligations.NoResynchronisation : Prop :=
  ∀ (s : State) (bs : List Byte), s.Inv → s.asmState ≠ .waitStart → s.asmCount.toNat + bs.length ≤ 70 →
    ∃ t : State, runCommands (bs.map .feed) s = .next t ∧ t.asmState ≠ .waitStart ∧
      t.asmCount.toNat = s.asmCount.toNat + bs.length ∧
      t.responses = s.responses ++ List.replicate bs.length [0x01] ∧
      ∀ (i : Nat) (h : i < 71), t.asmBuf[i] =
        if i < s.asmCount.toNat then s.asmBuf[i] else bs.getD (i - s.asmCount.toNat) s.asmBuf[i]

/-- R176 item 3: noise with no sentinel is discarded in `WaitStart`. -/
def Obligations.NoiseWithoutSentinelDiscarded : Prop :=
  ∀ (s : State) (bs : List Byte), s.asmState = .waitStart → 0xAA ∉ bs →
    runCommands (bs.map .feed) s =
      .next { s with responses := s.responses ++ List.replicate bs.length [0x01] }

/-- R180. -/
def Obligations.AsmResetCommand : Prop :=
  ∀ s : State, exec .asmReset s =
    .next { s with
      asmBuf := Vector.replicate 71 0x00
      asmCount := 0
      asmState := .waitStart
      responses := s.responses ++ [[0x00]] }

/-- R181: a partial frame, ASM_RESET, then the 71 bytes of a second frame give exactly one response other than
INCOMPLETE and ASM_RESET's own: the second frame's `checks` result. -/
def Obligations.TimeoutRecovery : Prop :=
  ∀ (s : State) (part : List Byte) (f : Frame), s.asmState = .waitStart → part.head? = some 0xAA →
    part.length ≤ 70 → f[0] = 0xAA →
    runCommands (part.map .feed ++ [.asmReset] ++ f.toList.map .feed) s =
      .next { s with
        asmBuf := (checks s f).2
        asmCount := 0
        responses := s.responses ++ List.replicate part.length [0x01] ++ [[0x00]] ++ List.replicate 70 [0x01] ++
          [validationAnswer (checks s f).1 (checks s f).2] }

/-! ## Registers -/

/-- R33, R200: the value at every register address; no state changes but the response. -/
def Obligations.RegReadCommand : Prop :=
  ∀ (a : Byte) (s : State), ∃ r : Packet,
    exec (.regRead a) s = .next { s with responses := s.responses ++ [r] } ∧
    (a = 0x00 → r = [0x00, match s.asmState with
      | .waitStart => 0x00 | .readHeader => 0x01 | .readPayload => 0x02 | .readCrc => 0x03]) ∧
    (a = 0x01 → r = [0x00, BitVec.ofNat 8 s.asmCount.toNat]) ∧
    (a = 0x02 → r = [0x00, if s.ctrl.getLsbD 0 then 0x01 else 0x00]) ∧
    (a = 0x03 → r = [0x00, s.localId]) ∧
    (a = 0x04 → r = [0x00, s.defaultTarget]) ∧
    (∀ h : 0x10 ≤ a.toNat ∧ a.toNat ≤ 0x1F, r = [0x00, s.key[a.toNat - 0x10]]) ∧
    ((0x05 ≤ a ∧ a ≤ 0x0F) ∨ 0x20 ≤ a → r = [0x07])

/-- R33, R201: the three writable addresses; every other address answers BAD_REGISTER and changes nothing. -/
def Obligations.RegWriteCommand : Prop :=
  ∀ (a v : Byte) (s : State),
    (a = 0x02 → exec (.regWrite a v) s = .next { s with ctrl := v &&& 0x01, responses := s.responses ++ [[0x00]] }) ∧
    (a = 0x03 → exec (.regWrite a v) s = .next { s with localId := v, responses := s.responses ++ [[0x00]] }) ∧
    (a = 0x04 → exec (.regWrite a v) s = .next { s with defaultTarget := v, responses := s.responses ++ [[0x00]] }) ∧
    (a ≠ 0x02 → a ≠ 0x03 → a ≠ 0x04 → exec (.regWrite a v) s = .next { s with responses := s.responses ++ [[0x07]] })

/-! ## The whole machine -/

/-- R26, R27, R32, R83: every step keeps the invariant. -/
def Obligations.StepKeepsInvariant : Prop :=
  ∀ s t : State, s.Inv → step s = .next t → t.Inv

/-- The invariant holds right after reset. -/
def Obligations.ResetMeetsInvariant : Prop := State.reset.Inv

/-- R250: the values the reset signal leaves, from any state, and no response for the command it abandons. -/
def Obligations.ResetSignalValues : Prop :=
  ∀ (link : Nat) (inProgress : Bool) (s t : State), t = resetSignal link inProgress s →
    t.asmState = .waitStart ∧ t.asmCount = 0 ∧
    (∀ (i : Nat) (h : i < 71), t.asmBuf[i] = 0x00 ∧ t.frameBuf[i] = 0x00) ∧
    t.key = Config.keyReset link ∧ t.localId = Config.localIdReset link ∧
    t.defaultTarget = Config.defaultTargetReset link ∧ t.ctrl = 0x00 ∧ t.responses = s.responses

/-- The model's choice (log 5): at the reset signal the packet of a command in progress is gone from the port, and every
packet still to come stays. And (logs 1, 10) the machine after reset is the block of link 0 with an idle port. -/
def Obligations.ResetSignalPort : Prop :=
  (∀ (link : Nat) (s : State), (resetSignal link false s).requests = s.requests ∧
    ∀ op bs, s.requests = op :: bs → (resetSignal link true s).requests = (op :: bs).drop (lengthByOpcode op bs)) ∧
  ∀ inProgress : Bool, State.reset = resetSignal 0 inProgress State.reset

/-- R20, R22, R28, R29, R57, R180, R268: each state element changes only by the commands the spec names as its
writers. -/
def Obligations.WritersOfEachElement : Prop :=
  ∀ (i : Instr) (s t : State), exec i s = .next t →
    ((∀ b, i ≠ .feed b) → i ≠ .asmReset →
      t.asmState = s.asmState ∧ t.asmCount = s.asmCount ∧ t.asmBuf = s.asmBuf) ∧
    ((∀ src tgt ty p, i ≠ .prepare src tgt ty p) → i ≠ .validate → (∀ f, i ≠ .frameWrite f) →
      t.frameBuf = s.frameBuf) ∧
    ((∀ k, i ≠ .setKey k) → t.key = s.key) ∧
    ((∀ v, i ≠ .regWrite 0x02 v) → t.ctrl = s.ctrl) ∧
    ((∀ v, i ≠ .regWrite 0x03 v) → t.localId = s.localId) ∧
    ((∀ v, i ≠ .regWrite 0x04 v) → t.defaultTarget = s.defaultTarget) ∧
    t.requests = s.requests ∧ ∃ r, t.responses = s.responses ++ [r]

/-- R31, D32: only REG_READ 0x04 shows DEFAULT_TARGET; for every other command two states that differ in it alone end
in states that differ in it alone, with the same responses. -/
def Obligations.DefaultTargetUnread : Prop :=
  ∀ (i : Instr) (s : State) (v : Byte), i ≠ .regRead 0x04 →
    ∃ t w, exec i s = .next t ∧ exec i { s with defaultTarget := v } = .next { t with defaultTarget := w }

/-- R27, R35, R174: what ASM_BUF holds at and above ASM_COUNT never shows: two states that differ only there give the
same responses and the same state elsewhere, over every sequence of commands. -/
def Obligations.StaleAssemblyBytesUnobservable : Prop :=
  ∀ (is : List Instr) (s : State) (buf : Frame), s.Inv →
    (∀ (i : Nat) (h : i < 71), i < s.asmCount.toNat → buf[i] = s.asmBuf[i]) →
    ∃ (t : State) (buf' : Frame), runCommands is s = .next t ∧
      runCommands is { s with asmBuf := buf } = .next { t with asmBuf := buf' }

/-- R34, R61, R241: a step of one instance is that instance's step, and every other instance keeps its state. -/
def Obligations.InstancesIndependent : Prop :=
  ∀ (nLinks : Nat) (p q : Platform nLinks) (k : Fin nLinks), p.stepLink k = .next q →
    step p[k] = .next q[k] ∧ ∀ j : Fin nLinks, j ≠ k → q[j] = p[j]

/-- R85: the expansions of the seven pseudo-commands. -/
def Obligations.PseudoCommandExpansions : Prop :=
  Pseudo.timeoutReset.expand = [.asmReset] ∧
  Pseudo.filterOn.expand = [.regWrite 0x02 0x01] ∧
  Pseudo.filterOff.expand = [.regWrite 0x02 0x00] ∧
  (∀ id, (Pseudo.setLocalId id).expand = [.regWrite 0x03 id]) ∧
  (∀ id, (Pseudo.setDefaultTarget id).expand = [.regWrite 0x04 id]) ∧
  (∀ bs, (Pseudo.feedAll bs).expand = bs.map .feed) ∧
  ∀ f, (Pseudo.receive f).expand = [.frameWrite f, .validate]

/-- R253, R266: after the boot sequence the configuration is what the host asked for, and nothing else has changed. -/
def Obligations.BootSequenceConfigures : Prop :=
  ∀ (k : Key) (localId defaultTarget : Byte) (filter : Bool) (s : State),
    runCommands (bootSequence k localId filter defaultTarget) s =
      .next { s with
        key := k
        localId := localId
        ctrl := if filter then 0x01 else 0x00
        defaultTarget := defaultTarget
        responses := s.responses ++ [[0x00], [0x00], [0x00], [0x00]] }

/-- R236: when the stall timeout has expired outside `WaitStart`, and only then, the host owes ASM_RESET. -/
def Obligations.TimeoutDutyIsAsmReset : Prop :=
  ∀ (elapsedMs : Nat) (s : State),
    (Config.timeoutMs < elapsedMs ∧ s.asmState ≠ .waitStart → timeoutDuty elapsedMs s = some .asmReset) ∧
    (¬(Config.timeoutMs < elapsedMs ∧ s.asmState ≠ .waitStart) → timeoutDuty elapsedMs s = none)

/-- R84, with the forms as the model prints them (log 15): the mnemonic form of a command that has a packet, read back,
is that command alone. -/
def Obligations.MnemonicFormReadsBack : Prop :=
  ∀ i : Instr, i.wellFormed = true → assembleLine (instrText i) = some [i]
end

