-- ==== Sys2Proof/Laws/State.lean ====
section
/-! SUPPORT. One lemma per field per named update of the state, so that no proof unfolds an update. -/

namespace Sys2Proof.Machine

variable (s : State) (st : Status) (data : List Byte) (b : Byte) (limit : Nat) (next : AsmState) (p : List Byte)

@[simp] theorem respond_asmState : (respond st data s).asmState = s.asmState := rfl
@[simp] theorem respond_asmCount : (respond st data s).asmCount = s.asmCount := rfl
@[simp] theorem respond_asmBuf : (respond st data s).asmBuf = s.asmBuf := rfl
@[simp] theorem respond_frameBuf : (respond st data s).frameBuf = s.frameBuf := rfl
@[simp] theorem respond_key : (respond st data s).key = s.key := rfl
@[simp] theorem respond_localId : (respond st data s).localId = s.localId := rfl
@[simp] theorem respond_defaultTarget : (respond st data s).defaultTarget = s.defaultTarget := rfl
@[simp] theorem respond_ctrl : (respond st data s).ctrl = s.ctrl := rfl
@[simp] theorem respond_requests : (respond st data s).requests = s.requests := rfl
@[simp] theorem respond_responses : (respond st data s).responses = s.responses ++ [st.code :: data] := rfl

theorem endWithError_eq : endWithError st s = respond st [] s := rfl
theorem answerIllegal_eq : answerIllegal s = respond .illegalCommand [] s := rfl

/-- A validation's answer is one response, whose data is the frame exactly when the status is OK (R81). -/
theorem respondFrame_eq (f : Frame) : respondFrame st f s = respond st (if st = .ok then f.toList else []) s := by
  unfold respondFrame; split <;> simp_all [endWithError]

@[simp] theorem startAssembly_asmState : (startAssembly s).asmState = .readHeader := rfl
@[simp] theorem startAssembly_asmCount : (startAssembly s).asmCount = 1 := rfl
@[simp] theorem startAssembly_asmBuf : (startAssembly s).asmBuf = memWrite zeroFrame 0 [sentinel] := rfl
@[simp] theorem startAssembly_frameBuf : (startAssembly s).frameBuf = s.frameBuf := rfl
@[simp] theorem startAssembly_key : (startAssembly s).key = s.key := rfl
@[simp] theorem startAssembly_localId : (startAssembly s).localId = s.localId := rfl
@[simp] theorem startAssembly_defaultTarget : (startAssembly s).defaultTarget = s.defaultTarget := rfl
@[simp] theorem startAssembly_ctrl : (startAssembly s).ctrl = s.ctrl := rfl
@[simp] theorem startAssembly_requests : (startAssembly s).requests = s.requests := rfl
@[simp] theorem startAssembly_responses : (startAssembly s).responses = s.responses := rfl

@[simp] theorem storeByte_asmState : (storeByte b s).asmState = s.asmState := by simp only [storeByte]
@[simp] theorem storeByte_asmCount : (storeByte b s).asmCount = s.asmCount := by simp only [storeByte]
@[simp] theorem storeByte_asmBuf : (storeByte b s).asmBuf = memWrite s.asmBuf s.asmCount.toNat [b] := by simp only [storeByte]
@[simp] theorem storeByte_frameBuf : (storeByte b s).frameBuf = s.frameBuf := by simp only [storeByte]
@[simp] theorem storeByte_key : (storeByte b s).key = s.key := by simp only [storeByte]
@[simp] theorem storeByte_localId : (storeByte b s).localId = s.localId := by simp only [storeByte]
@[simp] theorem storeByte_defaultTarget : (storeByte b s).defaultTarget = s.defaultTarget := by simp only [storeByte]
@[simp] theorem storeByte_ctrl : (storeByte b s).ctrl = s.ctrl := by simp only [storeByte]
@[simp] theorem storeByte_requests : (storeByte b s).requests = s.requests := by simp only [storeByte]
@[simp] theorem storeByte_responses : (storeByte b s).responses = s.responses := by simp only [storeByte]

@[simp] theorem appendByte_asmState :
    (appendByte b limit next s).asmState = if nextCount s = limit then next else s.asmState := by simp only [appendByte, storeByte]
@[simp] theorem appendByte_asmCount : (appendByte b limit next s).asmCount = BitVec.ofNat 7 (nextCount s) := by simp only [appendByte, storeByte]
@[simp] theorem appendByte_asmBuf :
    (appendByte b limit next s).asmBuf = memWrite s.asmBuf s.asmCount.toNat [b] := by simp only [appendByte, storeByte]
@[simp] theorem appendByte_frameBuf : (appendByte b limit next s).frameBuf = s.frameBuf := by simp only [appendByte, storeByte]
@[simp] theorem appendByte_key : (appendByte b limit next s).key = s.key := by simp only [appendByte, storeByte]
@[simp] theorem appendByte_localId : (appendByte b limit next s).localId = s.localId := by simp only [appendByte, storeByte]
@[simp] theorem appendByte_defaultTarget : (appendByte b limit next s).defaultTarget = s.defaultTarget := by simp only [appendByte, storeByte]
@[simp] theorem appendByte_ctrl : (appendByte b limit next s).ctrl = s.ctrl := by simp only [appendByte, storeByte]
@[simp] theorem appendByte_requests : (appendByte b limit next s).requests = s.requests := by simp only [appendByte, storeByte]
@[simp] theorem appendByte_responses : (appendByte b limit next s).responses = s.responses := by simp only [appendByte, storeByte]

@[simp] theorem send_requests : (s.send p).requests = s.requests ++ p := rfl
@[simp] theorem send_responses : (s.send p).responses = s.responses := rfl

/-- With nothing waiting at the port, sending a packet makes it the whole of the port. -/
theorem send_eq_of_idle (h : s.requests = []) : s.send p = { s with requests := p } := by simp [State.send, h]

end Sys2Proof.Machine
end

