-- ==== Sys2Proof/Laws/Buffer.lean ====
section
/-! SUPPORT. What reading and writing a buffer does, byte by byte (spec/00_scope.md R11). -/

namespace Sys2Proof.Machine

variable {n : Nat}

/-- A write changes exactly the bytes it covers. -/
theorem getElem_memWrite (buf : Vector Byte n) (a : Nat) (v : List Byte) (i : Nat) (h : i < n) :
    (memWrite buf a v)[i] = if a ≤ i ∧ i < a + v.length then v.getD (i - a) 0 else buf[i] := by
  simp [memWrite]

/-- A write leaves every byte outside it alone. -/
theorem getElem_memWrite_outside (buf : Vector Byte n) (a : Nat) (v : List Byte) (i : Nat) (h : i < n)
    (ho : i < a ∨ a + v.length ≤ i) : (memWrite buf a v)[i] = buf[i] := by
  rw [getElem_memWrite, if_neg (by omega)]

/-- A written byte reads back. -/
theorem getElem_memWrite_inside (buf : Vector Byte n) (a : Nat) (v : List Byte) (j : Nat) (hj : j < v.length)
    (h : a + j < n) : (memWrite buf a v)[a + j] = v[j] := by
  rw [getElem_memWrite, if_pos (by omega)]
  simp [hj]

/-- Writing a whole buffer's worth of bytes makes the buffer those bytes. -/
theorem toList_memWrite_whole (buf : Vector Byte n) (v : List Byte) (hv : v.length = n) :
    (memWrite buf 0 v).toList = v := by
  apply List.ext_getElem
  · simp [hv]
  · intro i h1 h2
    have hi : i < n := by simpa using h1
    have := getElem_memWrite_inside buf 0 v i h2 (by omega)
    simpa using this

/-- Loading a buffer with another's bytes gives the other. -/
@[simp] theorem memWrite_toList (buf f : Vector Byte n) : memWrite buf 0 f.toList = f := by
  apply Vector.toList_inj.mp
  exact toList_memWrite_whole buf f.toList (by simp)

@[simp] theorem length_memRead (buf : Vector Byte n) (a len : Nat) :
    (memRead buf a len).length = min len (n - a) := by
  simp [memRead]

theorem getElem_memRead (buf : Vector Byte n) (a len j : Nat) (h : j < (memRead buf a len).length) :
    (memRead buf a len)[j] = buf[a + j]'(by simp at h; omega) := by
  simp [memRead]

/-- Reading a whole buffer gives its bytes. -/
@[simp] theorem memRead_whole (buf : Vector Byte n) : memRead buf 0 n = buf.toList := by
  simp [memRead]

end Sys2Proof.Machine
end

