-- ==== Sys2Proof/Laws/Checksum.lean ====
section
/-! SUPPORT. The algebra of the checksum engine (spec/40_checksum.md R100 to R104): one round is linear and loses
nothing, so the engine is affine in its data and keeps one-byte and two-byte differences. -/

namespace Sys2Proof.Machine

/-- One round is linear over XOR. -/
theorem crcRound_xor (a b : Word16) : crcRound (a ^^^ b) = crcRound a ^^^ crcRound b := by
  unfold crcRound
  rw [BitVec.getLsbD_xor, BitVec.shiftLeft_xor_distrib]
  generalize a <<< 1 = x; generalize b <<< 1 = y
  cases a.getLsbD 15 <;> cases b.getLsbD 15 <;> simp
  · ac_rfl
  · ac_rfl
  · rw [show x ^^^ crcPoly ^^^ (y ^^^ crcPoly) = x ^^^ y ^^^ (crcPoly ^^^ crcPoly) by ac_rfl]; simp

/-- Any number of rounds is linear over XOR. -/
theorem crcRound_iterate_xor (n : Nat) (a b : Word16) : crcRound^[n] (a ^^^ b) = crcRound^[n] a ^^^ crcRound^[n] b := by
  induction n generalizing a b with
  | zero => rfl
  | succ n ih => simp only [Function.iterate_succ, Function.comp_apply, crcRound_xor, ih]

/-- Placing a byte in bits 15:8 is linear over XOR. -/
theorem highByte_xor (b c : Byte) :
    ((b ^^^ c).setWidth 16 <<< 8 : Word16) = b.setWidth 16 <<< 8 ^^^ c.setWidth 16 <<< 8 := by
  rw [BitVec.setWidth_xor, BitVec.shiftLeft_xor_distrib]

/-- Taking in one byte is linear over XOR in the register and the byte together. -/
theorem crcByte_xor (r r' : Word16) (b c : Byte) : crcByte (r ^^^ r') (b ^^^ c) = crcByte r b ^^^ crcByte r' c := by
  unfold crcByte
  rw [← crcRound_iterate_xor, highByte_xor]
  congr 1; ac_rfl

/-- R104 law 1, from any two start values. -/
theorem crcFrom_xor (r r' : Word16) (x e : List Byte) (h : x.length = e.length) :
    crcFrom (r ^^^ r') (List.zipWith (· ^^^ ·) x e) = crcFrom r x ^^^ crcFrom r' e := by
  induction x generalizing r r' e with
  | nil => cases e <;> simp_all [crcFrom]
  | cons b x ih =>
    cases e with
    | nil => simp at h
    | cons c e =>
      simp only [crcFrom, List.zipWith_cons_cons, List.foldl_cons, crcByte_xor] at ih ⊢
      exact ih _ _ _ (by simpa using h)

/-- The engine takes the bytes in one by one. -/
theorem crcFrom_cons (r : Word16) (b : Byte) (d : List Byte) : crcFrom r (b :: d) = crcFrom (crcByte r b) d := rfl

/-- The engine goes on from where it stands. -/
theorem crcFrom_append (r : Word16) (x y : List Byte) : crcFrom r (x ++ y) = crcFrom (crcFrom r x) y := by
  simp [crcFrom]

/-- Only the zero register goes to zero: the polynomial's bit 0 marks the shifted-out bit. -/
theorem crcRound_eq_zero (r : Word16) (h : crcRound r = 0) : r = 0 := by
  unfold crcRound at h
  split at h
  · have := congrArg (·.getLsbD 0) h
    simp [crcPoly] at this
  · rename_i hb
    apply BitVec.eq_of_getLsbD_eq
    intro i hi
    rcases Nat.lt_or_ge i 15 with h15 | h15
    · have := congrArg (·.getLsbD (i + 1)) h
      simp only [BitVec.getLsbD_eq_getElem hi]
      simpa [show i + 1 < 16 by omega] using this
    · have : i = 15 := by omega
      subst this
      simpa using hb

/-- Only the zero register goes to zero in any number of rounds. -/
theorem crcRound_iterate_eq_zero (n : Nat) (r : Word16) (h : crcRound^[n] r = 0) : r = 0 := by
  induction n generalizing r with
  | zero => exact h
  | succ n ih => exact crcRound_eq_zero r (ih _ (by simpa using h))

/-- Rounds lose nothing. -/
theorem crcRound_iterate_injective (n : Nat) : Function.Injective (crcRound^[n]) := by
  intro a b h
  have h0 : crcRound^[n] (a ^^^ b) = 0 := by rw [crcRound_iterate_xor, h, BitVec.xor_self]; rfl
  exact BitVec.xor_eq_zero_iff.mp (crcRound_iterate_eq_zero n _ h0)

/-- Taking in a byte loses nothing of the register. -/
theorem crcByte_injective (b : Byte) : Function.Injective (crcByte · b) := by
  intro a c h
  have := crcRound_iterate_injective 8 h
  exact (BitVec.xor_left_inj _).mp this

/-- Taking in any sequence loses nothing of the register. -/
theorem crcFrom_injective (d : List Byte) : Function.Injective (crcFrom · d) := by
  induction d with
  | nil => exact fun _ _ h => h
  | cons b d ih => exact fun a c h => crcByte_injective b (ih h)

/-- Placing a byte in bits 15:8 loses nothing. -/
theorem highByte_injective : Function.Injective (fun b : Byte => (b.setWidth 16 <<< 8 : Word16)) := by
  intro b c h
  apply BitVec.eq_of_getLsbD_eq
  intro i hi
  have := congrArg (·.getLsbD (i + 8)) h
  simpa [hi, show i + 8 < 16 by omega, show i < 16 by omega] using this

/-- Taking in a byte loses nothing of the byte. -/
theorem crcByte_data_injective (r : Word16) : Function.Injective (crcByte r) := by
  intro b c h
  exact highByte_injective ((BitVec.xor_right_inj _).mp (crcRound_iterate_injective 8 h))

/-- A nonzero byte in bits 15:8 leaves a nonzero low byte after its 8 rounds. -/
theorem crcRound8_lowByte : ∀ e : Byte, (crcRound^[8] (e.setWidth 16 <<< 8)).setWidth 8 = (0 : Byte) → e = 0 := by
  decide +kernel

/-- Two adjacent bytes: the register keeps the pair. -/
theorem crcByte_pair_injective (r : Word16) (b b' c c' : Byte)
    (h : crcByte (crcByte r b) b' = crcByte (crcByte r c) c') : b = c ∧ b' = c' := by
  have hx : crcByte (crcByte r b ^^^ crcByte r c) (b' ^^^ c') = 0 := by rw [crcByte_xor, h, BitVec.xor_self]; rfl
  have he : crcByte r b ^^^ crcByte r c = crcRound^[8] ((b ^^^ c).setWidth 16 <<< 8) := by
    rw [← crcByte_xor, BitVec.xor_self]; simp [crcByte]
  have h0 := crcRound_iterate_eq_zero 8 _ hx
  rw [he] at h0
  have hl := congrArg (BitVec.setWidth 8) (BitVec.xor_eq_zero_iff.mp h0)
  have hz : (((b' ^^^ c').setWidth 16 <<< 8 : Word16)).setWidth 8 = (0 : Byte) := by
    apply BitVec.eq_of_getLsbD_eq
    intro i hi
    simp [hi]
  have hbc := BitVec.xor_eq_zero_iff.mp (crcRound8_lowByte (b ^^^ c) (hl.trans hz))
  subst hbc
  exact ⟨rfl, crcByte_data_injective _ h⟩

/-- From a zero register, zero bytes change nothing. -/
theorem crcFrom_zeros (n : Nat) : crcFrom 0 (List.replicate n 0) = 0 := by
  induction n with
  | zero => rfl
  | succ n ih => exact ih

end Sys2Proof.Machine
end

