-- ==== Sys2Proof/Laws/Obfuscator.lean ====
section
/-! SUPPORT. The algebra of the obfuscator (spec/41_obfuscator.md R120 to R122): it works byte by byte and keeps
lengths, and its two directions undo each other. -/

namespace Sys2Proof.Machine

/-- R9: the rotation written with shifts is the rotation of bit vectors. -/
theorem rotl8_rot : ∀ v : Byte, rotl8 v rot = v.rotateLeft 3 := by decide

/-- R9: the rotation written with shifts is the rotation of bit vectors. -/
theorem rotr8_rot : ∀ v : Byte, rotr8 v rot = v.rotateRight 3 := by decide

@[simp] theorem rotr8_rotl8 : ∀ v : Byte, rotr8 (rotl8 v rot) rot = v := by decide

@[simp] theorem rotl8_rotr8 : ∀ v : Byte, rotl8 (rotr8 v rot) rot = v := by decide

variable (d : List Byte) (k : Key)

/-- R122 law 4. -/
@[simp] theorem length_obf : (obf d k).length = d.length := by simp [obf]

/-- R122 law 4. -/
@[simp] theorem length_deobf : (deobf d k).length = d.length := by simp [deobf]

/-- R120: one byte of the obfuscation. -/
theorem getElem_obf (i : Nat) (h : i < (obf d k).length) :
    (obf d k)[i] = rotl8 (d[i]'(by simpa using h) ^^^ keyByte k i) rot := by
  simp [obf]

/-- R121: one byte of the de-obfuscation. -/
theorem getElem_deobf (i : Nat) (h : i < (deobf d k).length) :
    (deobf d k)[i] = rotr8 (d[i]'(by simpa using h)) rot ^^^ keyByte k i := by
  simp [deobf]

end Sys2Proof.Machine
end

