-- ==== Sys2Proof/Laws/Codec.lean ====
section
/-! SUPPORT. What building and validating a frame does, byte by byte (spec/42_codec.md R140 to R153). -/

namespace Sys2Proof.Machine

/-- R51, R54: a 16-bit value sent low byte first is read back. -/
theorem fromLe16_extract (v : Word16) : fromLe16 (v.extractLsb' 0 8) (v.extractLsb' 8 8) = v := by
  apply BitVec.eq_of_getLsbD_eq
  intro i hi
  simp only [fromLe16, BitVec.getLsbD_or, BitVec.getLsbD_setWidth, BitVec.getLsbD_extractLsb', BitVec.getLsbD_shiftLeft]
  rcases Nat.lt_or_ge i 8 with h | h
  · simp [h, hi]
  · simp [hi, show ¬ i < 8 by omega, show i - 8 < 8 by omega, show 8 + (i - 8) = i by omega, show i - 8 < 16 by omega]

/-- R140: 69 plaintext bytes. -/
theorem length_plainFrame (src tgt ty : Byte) (p : List Byte) (h : p.length ≤ payloadCap) :
    (plainFrame src tgt ty p).length = crcCover := by
  simp [plainFrame, payloadCap, crcCover] at h ⊢; omega

/-- R140: 71 wire bytes. -/
theorem length_wireForm (plain : List Byte) (k : Key) (h : plain.length = crcCover) :
    (wireForm plain k).length = frameSize := by
  simp [wireForm, le16, crcCover, frameSize, payloadOff] at h ⊢; omega

/-- R123, R140: payload byte `i` on the wire uses key byte `i mod 16`. -/
theorem getElem_wireForm_payload (plain : List Byte) (k : Key) (h : plain.length = 69) (i : Nat) (hi : i < 64) :
    (wireForm plain k)[5 + i]'(by rw [length_wireForm _ _ h]; show _ < 71; omega) = rotl8 (plain[5 + i] ^^^ keyByte k i) rot := by
  have h5 : (plain.take 5).length = 5 := by simp [h]
  have : wireForm plain k = plain.take 5 ++ (obf (plain.drop 5) k ++ le16 (crc16 plain)) := by
    simp [wireForm, payloadOff]
  simp only [this]
  rw [List.getElem_append_right (by omega), List.getElem_append_left (by simp [h, hi])]
  simp only [h5, Nat.add_sub_cancel_left, getElem_obf, List.getElem_drop]

/-- R140: payload byte `i` of the plaintext, zero past the payload's length. -/
theorem getElem_plainFrame_payload (src tgt ty : Byte) (p : List Byte) (i : Nat) (hi : i < 64) (hp : p.length ≤ 64) :
    (plainFrame src tgt ty p)[5 + i]'(by rw [length_plainFrame _ _ _ _ hp]; show _ < 69; omega) = if h : i < p.length then p[i] else 0 := by
  have : plainFrame src tgt ty p = [sentinel, src, tgt, ty, BitVec.ofNat 8 p.length] ++ (p ++ List.replicate (64 - p.length) 0) := by
    simp [plainFrame, payloadCap]
  simp only [this]
  rw [List.getElem_append_right (by simp)]
  simp only [List.length_cons, List.length_nil, Nat.zero_add, Nat.reduceAdd, Nat.add_sub_cancel_left, List.getElem_append]
  split <;> simp

/-- R70: 64 payload bytes. -/
theorem length_framePayload (f : Frame) : (framePayload f).length = 64 := by
  simp [framePayload, payloadCap, payloadOff]

/-- R70: payload byte `i` is frame byte `5 + i`. -/
theorem getElem_framePayload (f : Frame) (i : Nat) (h : i < (framePayload f).length) :
    (framePayload f)[i] = f[5 + i]'(by rw [length_framePayload] at h; omega) := by
  simp only [framePayload, getElem_memRead]

/-- R124, R149: the bytes outside the payload stay. -/
theorem getElem_deobfFrame_outside (f : Frame) (k : Key) (i : Nat) (h : i < 71) (ho : i < 5 ∨ 69 ≤ i) :
    (deobfFrame f k)[i] = f[i] := by
  apply getElem_memWrite_outside
  simp [length_framePayload]; omega

/-- R123, R149: payload byte `i` is de-obfuscated under key byte `i mod 16`. -/
theorem getElem_deobfFrame_inside (f : Frame) (k : Key) (i : Nat) (h : i < 64) :
    (deobfFrame f k)[5 + i] = rotr8 f[5 + i] rot ^^^ keyByte k i := by
  unfold deobfFrame
  rw [getElem_memWrite_inside _ _ _ i (by simpa [length_framePayload] using h)]
  rw [getElem_deobf]
  simp only [getElem_framePayload]

/-- R103: the bytes the checksum covers. -/
theorem memRead_prefix (f : Frame) : memRead f 0 crcCover = f.toList.take 69 := by simp [memRead, crcCover]

/-- R149: a validated frame is the header, the de-obfuscated payload and the checksum as received. -/
theorem toList_deobfFrame (f : Frame) (k : Key) :
    (deobfFrame f k).toList = f.toList.take 5 ++ deobf (framePayload f) k ++ f.toList.drop 69 := by
  have hd : (deobf (framePayload f) k).length = 64 := by rw [length_deobf, length_framePayload]
  apply List.ext_getElem
  · simp [hd]
  · intro i h1 h2
    have hi : i < 71 := by simpa using h1
    rw [Vector.getElem_toList]
    rcases Nat.lt_or_ge i 5 with h | h
    · rw [getElem_deobfFrame_outside f k i hi (.inl h), List.getElem_append_left (by simp [hd]; omega),
        List.getElem_append_left (by simp; omega)]
      simp
    · rcases Nat.lt_or_ge i 69 with h' | h'
      · obtain ⟨j, rfl⟩ := Nat.exists_eq_add_of_le h
        rw [getElem_deobfFrame_inside f k j (by omega), List.getElem_append_left (by simp [hd]; omega),
          List.getElem_append_right (by simp)]
        simp only [List.length_take, Vector.length_toList, Nat.min_eq_left (show 5 ≤ 71 by decide),
          Nat.add_sub_cancel_left, getElem_deobf, getElem_framePayload]
      · rw [getElem_deobfFrame_outside f k i hi (.inr h'), List.getElem_append_right (by simp [hd]; omega)]
        simp only [List.length_append, List.length_take, Vector.length_toList,
          Nat.min_eq_left (show 5 ≤ 71 by decide), hd, List.getElem_drop, Vector.getElem_toList]
        congr 1; omega

/-- R155: the frame buffer PREPARE leaves, validated under a key: the header and the plaintext, the payload off by the
key difference, and the checksum of the plaintext. -/
theorem toList_deobfFrame_wireForm (b : Frame) (plain : List Byte) (k k' : Key) (h : plain.length = 69) :
    (deobfFrame (memWrite b 0 (wireForm plain k)) k').toList =
      plain.take 5 ++ deobf (obf (plain.drop 5) k) k' ++ le16 (crc16 plain) := by
  have hw : (memWrite b 0 (wireForm plain k)).toList = wireForm plain k :=
    toList_memWrite_whole _ _ (length_wireForm plain k h)
  have h5 : (plain.take 5).length = 5 := by simp [h]
  have h64 : (obf (plain.drop 5) k).length = 64 := by simp [h]
  have hp : framePayload (memWrite b 0 (wireForm plain k)) = obf (plain.drop 5) k := by
    rw [framePayload, memRead, hw]
    simp only [wireForm, payloadOff, payloadCap, List.append_assoc]
    rw [List.drop_append_of_le_length (by omega), List.drop_eq_nil_of_le (by omega), List.nil_append,
      List.take_append_of_le_length (by omega), List.take_of_length_le (by omega)]
  have e1 : (wireForm plain k).take 5 = plain.take 5 := by
    simp only [wireForm, payloadOff, List.append_assoc]
    rw [List.take_append_of_le_length (by omega), List.take_take, Nat.min_self]
  have e2 : (wireForm plain k).drop 69 = le16 (crc16 plain) := by
    simp only [wireForm, payloadOff]
    rw [List.drop_append_of_le_length (by simp [h]), List.drop_eq_nil_of_le (by simp [h]), List.nil_append]
  rw [toList_deobfFrame, hp, hw, e1, e2]

/-- R149: validation reads KEY, CTRL and LOCAL_ID and nothing else of the state. -/
theorem checks_congr (s u : State) (f : Frame) (hk : u.key = s.key) (hc : u.ctrl = s.ctrl)
    (hl : u.localId = s.localId) : checks u f = checks s f := by
  have hf : filterEn u = filterEn s := by rw [filterEn, filterEn, hc]
  have ha : accept u (frameTarget f) = accept s (frameTarget f) := by rw [accept, accept, hl]
  rw [checks, checks, hk, hf, ha]

/-- R149: the frame after validation is the frame itself, or the frame with its payload de-obfuscated. -/
theorem checks_frame (s : State) (f : Frame) :
    (checks s f).2 = f ∧ (checks s f).1 = .invalidStart ∨ (checks s f).2 = deobfFrame f s.key ∧
      ((checks s f).1 = .invalidChecksum ∨ (checks s f).1 = .misaddressed ∨ (checks s f).1 = .ok) := by
  unfold checks
  split
  · exact .inl ⟨rfl, rfl⟩
  · right
    dsimp only
    split
    · exact ⟨rfl, .inl rfl⟩
    · split
      · exact ⟨rfl, .inr (.inl rfl)⟩
      · exact ⟨rfl, .inr (.inr rfl)⟩

/-- R153: INVALID_START exactly when the start byte is not the sentinel. -/
theorem checks_invalidStart_iff (s : State) (f : Frame) : (checks s f).1 = .invalidStart ↔ f[0] ≠ sentinel := by
  unfold checks
  split
  · rename_i h; exact ⟨fun _ => h, fun _ => rfl⟩
  · rename_i h
    refine ⟨fun hx => ?_, fun hx => absurd hx h⟩
    dsimp only at hx
    split at hx
    · cases hx
    · split at hx <;> cases hx

/-- The validated frame keeps its start byte. -/
theorem checks_head (s : State) (f : Frame) : (checks s f).2[0] = f[0] := by
  rcases checks_frame s f with ⟨h, -⟩ | ⟨h, -⟩
  · rw [h]
  · rw [h, getElem_deobfFrame_outside _ _ 0 _ (.inl (by decide))]

end Sys2Proof.Machine
end

