-- ==== Sys2Proof/Laws/Commands.lean ====
section
/-! SUPPORT. What a command can do (spec/20_memory.md R58, R60; spec/30_encoding.md R75, R80): it always ends, with exactly
one response, over a state whose port it has not touched otherwise. -/

namespace Sys2Proof.Machine

/-- R12, R75: every command ends in one response over a state that has the same port. -/
theorem exec_respond (i : Instr) (s : State) : ∃ (st : Status) (data : List Byte) (u : State),
    exec i s = .next (respond st data u) ∧ u.requests = s.requests ∧ u.responses = s.responses := by
  cases i with
  | feed b =>
    simp only [exec, execFeed]
    split
    · split
      · exact ⟨_, _, _, rfl, by simp, by simp⟩
      · exact ⟨_, _, _, rfl, rfl, rfl⟩
    · exact ⟨_, _, _, rfl, by simp, by simp⟩
    · exact ⟨_, _, _, rfl, by simp, by simp⟩
    · split
      · exact ⟨_, _, _, rfl, by simp, by simp⟩
      · simp only [completeFrame, respondFrame_eq]
        exact ⟨_, _, _, rfl, by simp, by simp⟩
  | asmReset => exact ⟨_, _, _, rfl, rfl, rfl⟩
  | prepare src tgt ty p =>
    simp only [exec, execPrepare]
    split
    · exact ⟨_, _, _, rfl, rfl, rfl⟩
    · exact ⟨_, _, _, rfl, by simp, by simp⟩
  | validate =>
    simp only [exec, execValidate, respondFrame_eq]
    exact ⟨_, _, _, rfl, by simp, by simp⟩
  | frameWrite f => exact ⟨_, _, _, rfl, by simp, by simp⟩
  | frameRead => exact ⟨_, _, _, rfl, rfl, rfl⟩
  | checksum d => exact ⟨_, _, _, rfl, rfl, rfl⟩
  | obfuscate d => exact ⟨_, _, _, rfl, rfl, rfl⟩
  | deobfuscate d => exact ⟨_, _, _, rfl, rfl, rfl⟩
  | setKey k => exact ⟨_, _, _, rfl, rfl, rfl⟩
  | regRead a =>
    simp only [exec, execRegRead]
    split <;> exact ⟨_, _, _, rfl, rfl, rfl⟩
  | regWrite a v =>
    simp only [exec, execRegWrite, writeReg]
    split_ifs <;> exact ⟨_, _, _, rfl, rfl, rfl⟩

/-- R75: every command has a next state, takes nothing from the port, and sends one response. -/
theorem exec_next (i : Instr) (s : State) : ∃ (t : State) (r : Packet),
    exec i s = .next t ∧ t.requests = s.requests ∧ t.responses = s.responses ++ [r] := by
  obtain ⟨st, data, u, he, hq, hr⟩ := exec_respond i s
  exact ⟨_, _, he, by simp [hq], by simp [hr]; rfl⟩

/-- A run of commands never stops (R244). -/
theorem runCommands_next (is : List Instr) (s : State) : ∃ t : State, runCommands is s = .next t := by
  induction is generalizing s with
  | nil => exact ⟨s, rfl⟩
  | cons i is ih =>
    obtain ⟨t, r, he, -⟩ := exec_next i s
    obtain ⟨u, hu⟩ := ih t
    exact ⟨u, by rw [runCommands, he]; exact hu⟩

/-- R60: a run of two sequences is the one and then the other. -/
theorem runCommands_append (l m : List Instr) (s t : State) (h : runCommands l s = .next t) :
    runCommands (l ++ m) s = runCommands m t := by
  induction l generalizing s with
  | nil => cases h; rfl
  | cons i l ih =>
    obtain ⟨u, r, he, -⟩ := exec_next i s
    rw [runCommands, he] at h
    rw [List.cons_append, runCommands, he]
    exact ih u h

end Sys2Proof.Machine
end

