-- ==== Sys2Proof/Laws/Assembler.lean ====
section
/-! SUPPORT. The branches of FEED (spec/43_assembler.md R170, R171), each as one equation over the shared operations, and
the register map's writes (spec/10_state.md R33). -/

namespace Sys2Proof.Machine

/-- Writing one byte is setting one element. -/
theorem memWrite_single (f : Frame) (c : Nat) (b : Byte) (h : c < 71) : memWrite f c [b] = f.set c b := by
  apply Vector.ext
  intro i hi
  rw [getElem_memWrite, Vector.getElem_set]
  by_cases hc : c = i
  · subst hc; simp
  · rw [if_neg (by simp; omega), if_neg hc]

variable (b : Byte) (s : State)

/-- R170: in `WaitStart` a byte other than the sentinel is discarded. -/
theorem execFeed_discard (h : s.asmState = .waitStart) (hb : b ≠ sentinel) :
    execFeed b s = .next (respond .incomplete [] s) := by
  simp only [execFeed, h, if_neg hb]

/-- R170: in `WaitStart` the sentinel starts an assembly. -/
theorem execFeed_start (h : s.asmState = .waitStart) :
    execFeed sentinel s = .next (respond .incomplete [] (startAssembly s)) := by
  simp only [execFeed, h, if_true]

/-- R170: in `ReadHeader` a byte is appended. -/
theorem execFeed_header (h : s.asmState = .readHeader) :
    execFeed b s = .next (respond .incomplete [] (appendByte b payloadOff .readPayload s)) := by
  simp only [execFeed, h]

/-- R170: in `ReadPayload` a byte is appended. -/
theorem execFeed_payload (h : s.asmState = .readPayload) :
    execFeed b s = .next (respond .incomplete [] (appendByte b crcOff .readCrc s)) := by
  simp only [execFeed, h]

/-- R170: in `ReadCrc` a byte before the 71st is appended. -/
theorem execFeed_crc (h : s.asmState = .readCrc) (hc : nextCount s < frameSize) :
    execFeed b s = .next (respond .incomplete [] (appendByte b frameSize .readCrc s)) := by
  simp only [execFeed, h, if_pos hc]

/-- R170: in `ReadCrc` the 71st byte completes the frame. -/
theorem execFeed_complete (h : s.asmState = .readCrc) (hc : ¬nextCount s < frameSize) :
    execFeed b s = .next (completeFrame (storeByte b s)) := by
  simp only [execFeed, h, if_neg hc]

/-- R33: the three writable registers. -/
theorem writeReg_cases (a v : Byte) (t : State) (h : writeReg s a v = some t) :
    a = 0x02 ∧ t = { s with ctrl := v &&& 0x01 } ∨ a = 0x03 ∧ t = { s with localId := v } ∨
      a = 0x04 ∧ t = { s with defaultTarget := v } := by
  unfold writeReg at h
  split_ifs at h with h2 h3 h4 <;> cases h
  · exact .inl ⟨h2, rfl⟩
  · exact .inr (.inl ⟨h3, rfl⟩)
  · exact .inr (.inr ⟨h4, rfl⟩)

end Sys2Proof.Machine
end

