-- ==== Sys2Proof/Laws/Decode.lean ====
section
/-! SUPPORT. What the decoder and the encoder do, helper by helper (spec/30_encoding.md R76 to R78, R88). -/

namespace Sys2Proof

/-- R76: every opcode byte selects its own row. -/
@[simp] theorem Opcode.ofByte_code (o : Opcode) : Opcode.ofByte o.code = some o := by cases o <;> decide

/-- R76: the row a byte selects has that byte as its code. -/
theorem Opcode.code_of_ofByte (b : Byte) (o : Opcode) (h : Opcode.ofByte b = some o) : b = o.code := by
  have := List.find?_some h
  exact (by simpa using this : o.code = b).symm

/-- Taking as many bytes as a sequence has gives it back. -/
theorem takeBytes_append (d rest : List Byte) : takeBytes d.length (d ++ rest) = some (d, rest) := by
  simp [takeBytes]

/-- What is taken stood at the front. -/
theorem takeBytes_eq_some (n : Nat) (bs d rest : List Byte) (h : takeBytes n bs = some (d, rest)) :
    bs = d ++ rest ∧ d.length = n := by
  unfold takeBytes at h
  split at h
  · cases h; simp_all
  · simp at h

/-- Bytes cannot be taken exactly when they are not there. -/
theorem takeBytes_none (n : Nat) (bs : List Byte) : takeBytes n bs = none ↔ bs.length < n := by
  simp [takeBytes]

/-- Taking a buffer's bytes gives the buffer back. -/
theorem takeBuffer_append {n : Nat} (f : Vector Byte n) (rest : List Byte) :
    takeBuffer n (f.toList ++ rest) = some (f, rest) := by
  have hl : f.toList.length = n := by simp
  unfold takeBuffer
  rw [dif_pos (by simp)]
  congr 2
  · apply Vector.toList_inj.mp
    simp
  · simp

/-- A taken buffer stood at the front. -/
theorem takeBuffer_eq_some {n : Nat} (bs rest : List Byte) (f : Vector Byte n)
    (h : takeBuffer n bs = some (f, rest)) : bs = f.toList ++ rest := by
  unfold takeBuffer at h
  split at h
  · cases h; simp
  · simp at h

/-- A buffer cannot be taken exactly when its bytes are not there. -/
theorem takeBuffer_none (n : Nat) (bs : List Byte) : takeBuffer n bs = none ↔ bs.length < n := by
  simp [takeBuffer]

/-- R77: a length that fits its byte is read back. -/
theorem lengthByte_toNat (d : List Byte) (h : lengthByteFits d = true) : (lengthByte d).toNat = d.length := by
  simp [lengthByteFits, lengthByte] at h ⊢; omega

/-- R77: a counted sequence is read back. -/
theorem takeCounted_append (d rest : List Byte) (h : lengthByteFits d = true) :
    takeCounted (lengthByte d :: d ++ rest) = some (d, rest) := by
  simp only [takeCounted, List.cons_append, lengthByte_toNat d h, takeBytes_append]

/-- R77: a counted sequence that was read stood at the front, and its length fits a byte. -/
theorem takeCounted_eq_some (bs d rest : List Byte) (h : takeCounted bs = some (d, rest)) :
    bs = lengthByte d :: d ++ rest ∧ lengthByteFits d = true := by
  cases bs with
  | nil => simp [takeCounted] at h
  | cons n bs =>
    obtain ⟨rfl, hl⟩ := takeBytes_eq_some _ _ _ _ h
    have := n.isLt
    refine ⟨?_, by simp [lengthByteFits]; omega⟩
    simp [lengthByte, hl]

/-- R77, R88: a counted sequence cannot be read exactly when its bytes are not there. -/
theorem takeCounted_none (bs : List Byte) : takeCounted bs = none ↔ bs.length < 1 + (bs.getD 0 0).toNat := by
  cases bs <;> simp [takeCounted, takeBytes_none]; omega

/-- R76: a packet whose operands decode is that command. -/
theorem decode_cons (o : Opcode) (bs rest : List Byte) (i : Instr) (h : decodeOperands o bs = some (i, rest)) :
    decode (o.code :: bs) = .command i rest := by
  simp [decode, h]

/-- R76: a decoded command starts with its opcode, and its operands decode. -/
theorem decode_command {bs rest : List Byte} {i : Instr} (h : decode bs = .command i rest) :
    ∃ o bs', bs = o.code :: bs' ∧ decodeOperands o bs' = some (i, rest) := by
  cases bs with
  | nil => simp [decode] at h
  | cons op bs =>
    simp only [decode] at h
    split at h
    · simp at h
    · rename_i o ho
      split at h
      · rename_i hd
        cases h
        exact ⟨o, bs, by rw [Opcode.code_of_ofByte _ _ ho], hd⟩
      · simp at h

/-- R78, R88: operands fail to decode exactly when the packet is longer than the bytes. -/
theorem decodeOperands_none (o : Opcode) (bs : List Byte) :
    decodeOperands o bs = none ↔ (o.code :: bs).length < packetLength (o.code :: bs) := by
  cases o <;> simp only [packetLength, Opcode.ofByte_code, decodeOperands, List.length_cons, Option.map_eq_none_iff,
    takeBuffer_none, takeCounted_none]
  case prepare =>
    rcases bs with _ | ⟨a, _ | ⟨b, _ | ⟨c, r⟩⟩⟩ <;> simp [takeCounted_none]
    omega
  case feed => cases bs <;> simp
  case regRead => cases bs <;> simp
  case regWrite => rcases bs with _ | ⟨a, _ | ⟨b, r⟩⟩ <;> simp
  all_goals first | omega | (simp; try omega)

/-- R76, column 'packet length'. -/
theorem length_encode (i : Instr) : (encode i).length = i.packetSize := by
  cases i <;> simp [encode, Instr.packetSize] <;> omega

/-- R78: the length of an encoded packet is read from its own bytes. -/
theorem packetLength_encode (i : Instr) (rest : List Byte) (h : i.wellFormed = true) :
    packetLength (encode i ++ rest) = (encode i).length := by
  cases i
  case prepare src tgt ty p =>
    change 5 + (lengthByte p).toNat = _
    rw [lengthByte_toNat p h]; simp [encode]; omega
  case checksum d =>
    change 2 + (lengthByte d).toNat = _
    rw [lengthByte_toNat d h]; simp [encode]; omega
  case obfuscate d =>
    change 2 + (lengthByte d).toNat = _
    rw [lengthByte_toNat d h]; simp [encode]; omega
  case deobfuscate d =>
    change 2 + (lengthByte d).toNat = _
    rw [lengthByte_toNat d h]; simp [encode]; omega
  case frameWrite f => change 72 = _; simp [encode]
  case setKey k => change 17 = _; simp [encode]
  all_goals rfl

end Sys2Proof
end

