-- ==== Sys2Proof/Laws/PerInstr.lean ====
section
/-! SUPPORT. Statements made for every constructor of `Instr`, one lemma each. -/

namespace Sys2Proof.Laws.EncodedLength

/-- R76: an instruction's packet has the length of its row's column "packet length". -/
def Statement (i : Instr) : Prop := (encode i).length = i.packetSize

theorem feed (b : Byte) : Statement (.feed b) := length_encode _
theorem asmReset : Statement (.asmReset) := length_encode _
theorem prepare (src tgt ty : Byte) (p : List Byte) : Statement (.prepare src tgt ty p) := length_encode _
theorem validate : Statement (.validate) := length_encode _
theorem frameWrite (f : Frame) : Statement (.frameWrite f) := length_encode _
theorem frameRead : Statement (.frameRead) := length_encode _
theorem checksum (d : List Byte) : Statement (.checksum d) := length_encode _
theorem obfuscate (d : List Byte) : Statement (.obfuscate d) := length_encode _
theorem deobfuscate (d : List Byte) : Statement (.deobfuscate d) := length_encode _
theorem setKey (k : Key) : Statement (.setKey k) := length_encode _
theorem regRead (a : Byte) : Statement (.regRead a) := length_encode _
theorem regWrite (a v : Byte) : Statement (.regWrite a v) := length_encode _

end Sys2Proof.Laws.EncodedLength
end

