-- ==== Sys2Proof/Laws/Step.lean ====
section
/-! SUPPORT. What a step can do (spec/20_memory.md R60; spec/30_encoding.md R75, R79, R88). -/

namespace Sys2Proof.Machine

variable {s t : State}

/-- Every next state is one of three: nothing was waiting, a command ran, or an illegal opcode was answered. -/
theorem step_next_cases (h : step s = .next t) :
    (decode s.requests = .noPacket ∧ t = s) ∨
    (∃ i rest, decode s.requests = .command i rest ∧ exec i { s with requests := rest } = .next t) ∨
    ∃ op rest, decode s.requests = .illegal op rest ∧ t = answerIllegal { s with requests := rest } := by
  unfold step at h
  split at h
  · rename_i hd; cases h; exact .inl ⟨hd, rfl⟩
  · rename_i i rest hd; exact .inr (.inl ⟨i, rest, hd, h⟩)
  · rename_i op rest hd; cases h; exact .inr (.inr ⟨op, rest, hd, rfl⟩)
  · cases h

/-- R88: a step is refused only for a packet that has not arrived whole. -/
theorem step_refused (r : Refusal) (h : step s = .refused r) : decode s.requests = .truncated := by
  unfold step at h
  split at h
  · cases h
  · rename_i i rest _
    obtain ⟨t, _, he, _⟩ := exec_next i { s with requests := rest }
    rw [he] at h; cases h
  · cases h
  · assumption

end Sys2Proof.Machine
end

