-- ==== Sys2Proof/Tests/Slice0.lean ====
section
/-! SUPPORT. The model's own tests. Expected values are those of spec/95_test_vectors.md (named in each docstring) or of
the rule a test names; none is the model's own output. The last part gives a witness for every statement that has
hypotheses, at the boundary values of its clauses. -/

open Sys2Proof Sys2Proof.Machine Sys2Proof.Rule

set_option Elab.async false

namespace Sys2Proof.Tests

/-! ## Data of spec/95_test_vectors.md -/

/-- The key K, 00 to 0F. -/
def kK : Key := Vector.ofFn fun i => BitVec.ofNat 8 i.val

/-- A frame from a list of its bytes. -/
def frameOf (l : List Byte) : Frame := Vector.ofFn fun i => l.getD i.val 0

/-- The payload p1. -/
def p1 : List Byte := [0x01, 0x00, 0x00, 0x34, 0x42, 0x00, 0x00, 0x20, 0xC1, 0x07]

/-- Q, the obfuscation of 16 zero bytes under K. -/
def qQ : List Byte :=
  [0x00, 0x08, 0x10, 0x18, 0x20, 0x28, 0x30, 0x38, 0x40, 0x48, 0x50, 0x58, 0x60, 0x68, 0x70, 0x78]

/-- The wire frame W1. -/
def w1 : List Byte :=
  [0xAA, 0x01, 0x00, 0x05, 0x0A, 0x08, 0x08, 0x10, 0xB9, 0x32, 0x28, 0x30, 0x39, 0x4E, 0x70, 0x50] ++
  [0x58, 0x60, 0x68, 0x70, 0x78] ++ qQ ++ qQ ++ qQ ++ [0x82, 0x36]

/-- Its plaintext T1. -/
def t1 : List Byte := [0xAA, 0x01, 0x00, 0x05, 0x0A] ++ p1 ++ List.replicate 54 0x00 ++ [0x82, 0x36]

/-- A block under K, with the address filter off unless `ctrl` says otherwise, LOCAL_ID 07 and DEFAULT_TARGET 42. -/
def block (a : AsmState) (c : BitVec 7) (asm frame : List Byte) (ctrl : Byte := 0) : State where
  asmState := a
  asmCount := c
  asmBuf := frameOf asm
  frameBuf := frameOf frame
  key := kK
  localId := 0x07
  defaultTarget := 0x42
  ctrl := ctrl
  requests := []
  responses := []

/-- The block in `WaitStart` with empty buffers. -/
def idle : State := block .waitStart 0 [] []

/-- The state after a command, and the state given where there is none. -/
def after (i : Instr) (s : State) : State :=
  match exec i s with
  | .next t => t
  | _ => s

/-- The response to a command. -/
def answer (i : Instr) (s : State) : Option Packet := (after i s).responses.head?

/-! ## WellFormed: one ill-formed term for each check -/

theorem test_wf_prepare_long : (Instr.prepare 0 0 0 (List.replicate 256 0)).wellFormed = false := by decide +kernel
theorem test_wf_prepare_255 : (Instr.prepare 0 0 0 (List.replicate 255 0)).wellFormed = true := by decide +kernel
theorem test_wf_checksum_long : (Instr.checksum (List.replicate 256 0)).wellFormed = false := by decide +kernel
theorem test_wf_obfuscate_long : (Instr.obfuscate (List.replicate 256 0)).wellFormed = false := by decide +kernel
theorem test_wf_deobfuscate_long : (Instr.deobfuscate (List.replicate 256 0)).wellFormed = false := by decide +kernel

/-! ## Decoding: packets written out from R76, one for every command -/

/-- R76; V-FEED-1. -/
theorem test_decode_feed : decode [0x01, 0xAA] = .command (.feed 0xAA) [] := by decide
/-- R76, R78: packets follow one another with no gap. -/
theorem test_decode_asmReset : decode [0x02, 0x13] = .command .asmReset [0x13] := by decide
/-- V-PREP-5. -/
theorem test_decode_prepare : decode [0x10, 0x02, 0xFF, 0x04, 0x02, 0x55, 0x2A] =
    .command (.prepare 0x02 0xFF 0x04 [0x55, 0x2A]) [] := by decide
/-- R76. -/
theorem test_decode_validate : decode [0x11] = .command .validate [] := by decide
/-- R76. -/
theorem test_decode_frameWrite : decode (0x12 :: w1 ++ [0x11]) = .command (.frameWrite (frameOf w1)) [0x11] := by
  decide +kernel
/-- R76. -/
theorem test_decode_frameRead : decode [0x13] = .command .frameRead [] := by decide
/-- V-CRC-7. -/
theorem test_decode_checksum : decode [0x20, 0x02, 0xAA, 0x01] = .command (.checksum [0xAA, 0x01]) [] := by decide
/-- V-OBF-1. -/
theorem test_decode_obfuscate : decode [0x21, 0x03, 0x41, 0x42, 0x43] = .command (.obfuscate [0x41, 0x42, 0x43]) [] := by
  decide
/-- V-OBF-5. -/
theorem test_decode_deobfuscate : decode [0x22, 0x03, 0x0A, 0x1A, 0x0A] =
    .command (.deobfuscate [0x0A, 0x1A, 0x0A]) [] := by decide
/-- V-KEY-1. -/
theorem test_decode_setKey : decode [0x30, 0x00, 0x01, 0x02, 0x03, 0x04, 0x05, 0x06, 0x07, 0x08, 0x09, 0x0A, 0x0B, 0x0C,
    0x0D, 0x0E, 0x0F] = .command (.setKey kK) [] := by decide +kernel
/-- V-KEY-1. -/
theorem test_decode_regRead : decode [0x31, 0x1F] = .command (.regRead 0x1F) [] := by decide
/-- V-REG-6. -/
theorem test_decode_regWrite : decode [0x32, 0x03, 0x07] = .command (.regWrite 0x03 0x07) [] := by decide
/-- V-ILL-7. -/
theorem test_decode_illegal : decode [0x03, 0x01, 0xAA] = .illegal 0x03 [0x01, 0xAA] := by decide
/-- R88: one byte short. -/
theorem test_decode_truncated : decode [0x10, 0x02, 0xFF, 0x04, 0x02, 0x55] = .truncated := by decide
/-- R76: V-PREP-5's packet. -/
theorem test_encode_prepare : encode (.prepare 0x02 0xFF 0x04 [0x55, 0x2A]) =
    [0x10, 0x02, 0xFF, 0x04, 0x02, 0x55, 0x2A] := by decide
/-- The opcode table's numbering: byte 0 is bits 7..0, byte 1 is bits 15..8. -/
theorem test_tableWord_regWrite : decodeTableWord 24 0x070332 = some (.regWrite 0x03 0x07) := by decide +kernel
theorem test_tableWord_frameWrite : decodeTableWord 8 0x12 = some (.frameWrite (Vector.replicate 71 0)) := by
  decide +kernel
/-- R75: the very next step after `withFetchWord` runs that command. -/
theorem test_fetchWord_validate : step (State.reset.withFetchWord 8 0x11) = exec .validate State.reset := by
  rfl

/-! ## Meanings: spec/95_test_vectors.md -/

/-- V-CRC-8. -/
theorem test_checksum_check_value : answer (.checksum [0x31, 0x32, 0x33, 0x34, 0x35, 0x36, 0x37, 0x38, 0x39]) idle =
    some [0x00, 0xB1, 0x29] := by decide +kernel
/-- V-CRC-11: T1's 69 covered bytes give W1's checksum field. -/
theorem test_checksum_frame : answer (.checksum (t1.take 69)) idle = some [0x00, 0x82, 0x36] := by decide +kernel
/-- V-OBF-1. -/
theorem test_obfuscate : answer (.obfuscate [0x41, 0x42, 0x43]) idle = some [0x00, 0x0A, 0x1A, 0x0A] := by
  decide +kernel
/-- V-OBF-3: the key index wraps. -/
theorem test_obfuscate_wraps : answer (.obfuscate (List.replicate 17 0)) idle = some (0x00 :: qQ ++ [0x00]) := by
  decide +kernel
/-- V-OBF-5. -/
theorem test_deobfuscate : answer (.deobfuscate [0x0A, 0x1A, 0x0A]) idle = some [0x00, 0x41, 0x42, 0x43] := by
  decide +kernel
/-- V-KEY-1: the key that was set reads back. -/
theorem test_setKey : answer (.regRead 0x1F) { after (.setKey kK) { idle with key := Vector.replicate 16 0x11 } with
    responses := [] } = some [0x00, 0x0F] := by decide +kernel
/-- V-PREP-1: the response and FRAME_BUF. -/
theorem test_prepare : answer (.prepare 0x01 0x00 0x05 p1) idle = some (0x00 :: w1) ∧
    (after (.prepare 0x01 0x00 0x05 p1) idle).frameBuf = frameOf w1 := by decide +kernel
/-- V-PREP-4: OVERSIZE leaves FRAME_BUF alone. -/
theorem test_prepare_oversize :
    after (.prepare 0x01 0x02 0x03 (List.replicate 65 0)) idle = { idle with responses := [[0x05]] } := by
  decide +kernel
/-- V-VAL-1. -/
theorem test_validate : answer .validate (block .waitStart 0 [] w1) = some (0x00 :: t1) ∧
    (after .validate (block .waitStart 0 [] w1)).frameBuf = frameOf t1 := by decide +kernel
/-- V-VAL-4, row (07, 00): the filter is on and the target is neither LOCAL_ID nor 0xFF. -/
theorem test_validate_misaddressed : answer .validate (block .waitStart 0 [] w1 0x01) = some [0x04] := by decide +kernel
/-- V-FR-3, first half. -/
theorem test_frameWrite : (after (.frameWrite (frameOf w1)) idle).frameBuf = frameOf w1 := by decide +kernel
/-- V-FR-3, second half. -/
theorem test_frameRead : answer .frameRead (block .waitStart 0 [] w1) = some (0x00 :: w1) := by decide +kernel
/-- V-FEED-1, stream index 4: the byte that makes the count 5 moves the state. -/
theorem test_feed_header_end : (after (.feed 0x0A) (block .readHeader 4 w1 [])).asmState = .readPayload ∧
    (after (.feed 0x0A) (block .readHeader 4 w1 [])).asmCount = 5 := by decide +kernel
/-- V-FEED-13: the 71st byte. -/
theorem test_feed_completes : answer (.feed 0x36) (block .readCrc 70 (w1.take 70) []) = some (0x00 :: t1) ∧
    (after (.feed 0x36) (block .readCrc 70 (w1.take 70) [])).asmState = .waitStart := by decide +kernel
/-- V-ARST-2. -/
theorem test_asmReset : after .asmReset (block .readPayload 5 (w1.take 5) []) = { idle with responses := [[0x00]] } := by
  decide +kernel
/-- V-ARST-2: `ASM_STATE` reads 02. -/
theorem test_regRead_asmState : answer (.regRead 0x00) (block .readPayload 5 (w1.take 5) []) = some [0x00, 0x02] := by
  decide +kernel
/-- V-REG-11. -/
theorem test_regRead_unmapped : answer (.regRead 0x20) idle = some [0x07] := by decide +kernel
/-- V-REG-4: only FILTER_EN is stored. -/
theorem test_regWrite_ctrl : after (.regWrite 0x02 0xFF) idle = { idle with ctrl := 0x01, responses := [[0x00]] } := by
  decide +kernel
/-- V-KEY-2. -/
theorem test_regWrite_key : after (.regWrite 0x15 0x99) idle = { idle with responses := [[0x07]] } := by decide +kernel
/-- V-VAL-6's last 16 payload bytes (offsets 53 to 68): W1 de-obfuscated under the wrong key. -/
theorem test_validate_wrong_key : ((after .validate { block .waitStart 0 [] w1 with
    key := Vector.replicate 16 0x11 }).frameBuf.toList.drop 53).take 4 = [0x11, 0x10, 0x13, 0x12] := by decide +kernel
/-- V-CRC-13: a cancelling pattern. -/
theorem test_crc0_cancels : crc0 ((List.range 4).flatMap fun _ => [0xF0, 0x1F] ++ List.replicate 14 0x00) = 0 := by
  decide +kernel
/-- R84's form, on V-PREP-5's command. -/
theorem test_text : instrText (.prepare 0x02 0xFF 0x04 [0x55, 0x2A]) = "PREPARE 0x02, 0xFF, 0x04, [55 2A]".toList := by
  decide +kernel
/-- R84: hexadecimal and decimal numbers, a byte list, a comment. -/
theorem test_assembleLine_prepare :
    assembleLine "PREPARE 0x02, 255, 0x04, [55 2A]  ; V-PREP-5".toList = some [.prepare 0x02 0xFF 0x04 [0x55, 0x2A]] := by
  decide +kernel
/-- R84, R85: pseudo-commands, an empty line, and lines that are no form. -/
theorem test_assembleLine_others :
    assembleLine "FEED_ALL [AA 01]".toList = some [.feed 0xAA, .feed 0x01] ∧
    assembleLine "SET_LOCAL_ID 0x07".toList = some [.regWrite 0x03 0x07] ∧ assembleLine "; note".toList = some [] ∧
    assembleLine "FEED 256".toList = none ∧ assembleLine "SET_KEY [00 01]".toList = none := by
  decide +kernel
/-- R73. -/
theorem test_messageKind : MessageKind.ofTag 0x42 = some .statusReport ∧ MessageKind.ofTag 0xAA = none := by decide
/-- R6: the sizes add up. -/
theorem test_sizes : hdrSize + payloadCap + crcSize = frameSize ∧ hdrSize = payloadOff ∧ payloadOff + payloadCap = crcOff := by
  decide

/-! ## Witnesses: a state and operands for the hypotheses of each statement -/

theorem witness_DecodeOfEncode : (Instr.prepare 0x01 0x02 0x03 (List.replicate 255 0xAA)).wellFormed = true := by
  decide +kernel
theorem witness_EncodeOfDecode : decode [0x20, 0x01, 0xAA, 0x55] = .command (.checksum [0xAA]) [0x55] := by decide
/-- The ends of every range of R79. -/
theorem witness_IllegalOpcodeAnswered :
    (∀ op ∈ [0x00, 0x03, 0x0F, 0x14, 0x1F, 0x23, 0x2F, 0x33, 0xFF], illegalOpcode op) ∧
    (∀ op ∈ [0x01, 0x02, 0x10, 0x13, 0x20, 0x22, 0x30, 0x32], ¬illegalOpcode op) ∧
    ({ idle with requests := [0x33, 0x01] } : State).requests = 0x33 :: [0x01] := by
  unfold illegalOpcode; decide
theorem witness_WholePacketDecodes :
    lengthByOpcode 0x10 [0x01, 0x02, 0x03, 0x01, 0xAA] ≤ [0x10, 0x01, 0x02, 0x03, 0x01, 0xAA].length ∧
    lengthByOpcode 0x33 [] ≤ [(0x33 : Byte)].length := by decide
/-- One byte short, and no length byte at all. -/
theorem witness_TruncatedPacketRefused :
    [0x10, 0x01, 0x02, 0x03, 0x01].length < lengthByOpcode 0x10 [0x01, 0x02, 0x03, 0x01] ∧
    [(0x20 : Byte)].length < lengthByOpcode 0x20 [] ∧
    ({ idle with requests := [0x20] } : State).requests = 0x20 :: [] := by decide
theorem witness_StepRunsDecoded : decode ({ idle with requests := [0x01, 0xAA, 0x13] } : State).requests =
    .command (.feed 0xAA) [0x13] := by decide
theorem witness_IdlePortHoldsState : idle.requests = [] := rfl
theorem witness_OneResponsePerPacket :
    ({ idle with requests := [0x31, 0x00] } : State).requests = 0x31 :: [0x00] ∧
    lengthByOpcode 0x31 [0x00] ≤ [(0x31 : Byte), 0x00].length := by decide
/-- A state in mid-assembly that meets the invariant, at the last count before completion. -/
theorem inv_readCrc : (block .readCrc 70 (w1.take 70) []).Inv :=
  ⟨by decide, fun _ => by decide +kernel, by decide, fun _ h => absurd h (List.not_mem_nil)⟩
theorem witness_ResponsesPerCommand : ∃ s : State, s.Inv ∧ s.asmState = .readCrc := ⟨_, inv_readCrc, rfl⟩
theorem witness_PacketRunIsCommandRun :
    (∀ i ∈ [Instr.feed 0xAA, .checksum [0x01], .validate], i.wellFormed = true) ∧ idle.requests = [] := by decide
theorem witness_ChecksumAffine : [(0x01 : Byte), 0x02, 0x03].length = [(0x10 : Byte), 0x00, 0x80].length := rfl
theorem witness_LocalErrorsChangeChecksum : (0x00 : Byte) ≠ 0x01 ∧ ((0x00 : Byte), (0x01 : Byte)) ≠ (0x00, 0x02) := by
  decide
theorem witness_ObfuscateCommand : 16 < (List.replicate 17 (0x00 : Byte)).length := by decide
theorem witness_DeobfuscateCommand : 0 < [(0x0A : Byte)].length := by decide
theorem witness_WrongKeyLeavesDifference : 2 < [(0x41 : Byte), 0x42, 0x43].length := by decide
/-- Both branches at their boundary, and the first and last payload byte. -/
theorem witness_PrepareCommand : 64 < (List.replicate 65 (0x00 : Byte)).length ∧
    (List.replicate 64 (0x00 : Byte)).length ≤ 64 ∧ 0 < 64 ∧ 63 < 64 := by decide
/-- A bad start and a good one; the bytes next to the payload and its first and last byte. -/
theorem witness_ValidationChecks : (frameOf [])[0] ≠ 0xAA ∧ (frameOf w1)[0] = 0xAA ∧ (4 < 71 ∧ 4 < 5) ∧
    (69 < 71 ∧ 69 ≤ 69) ∧ 63 < 64 := by decide +kernel
theorem witness_PrepareThenValidate : p1.length ≤ 64 ∧
    (∃ t, exec (.prepare 0x01 0xFF 0x05 p1) idle = .next t ∧ t.frameBuf = t.frameBuf ∧ t.key = t.key) ∧
    ((after (.prepare 0x01 0xFF 0x05 p1) { idle with ctrl := 0x01 }).ctrl.getLsbD 0 = true →
      (0xFF : Byte) = 0x07 ∨ (0xFF : Byte) = 0xFF) :=
  ⟨by decide, ⟨_, rfl, rfl, rfl⟩, fun _ => .inr rfl⟩
/-- The first and the last payload byte of W1. -/
theorem witness_CorruptPayloadByteDetected : (checks idle (frameOf w1)).1 = .ok ∧
    (5 ≤ 5 ∧ 5 ≤ 68 ∧ (0x09 : Byte) ≠ (frameOf w1)[5]) ∧ (5 ≤ 68 ∧ 68 ≤ 68 ∧ (0x79 : Byte) ≠ (frameOf w1)[68]) ∧
    ({ idle with frameBuf := (frameOf w1).set 68 0x79 } : State).frameBuf = (frameOf w1).set 68 0x79 := by
  decide +kernel
theorem witness_KeyMismatchDetectedExactly : p1.length ≤ 64 ∧
    (∃ t, exec (.prepare 0x01 0x00 0x05 p1) idle = .next t ∧ t.frameBuf = t.frameBuf) ∧ idle.ctrl.getLsbD 0 = false :=
  ⟨by decide, ⟨_, rfl, rfl⟩, by decide⟩
theorem witness_SecondValidateDeobfuscatesAgain : (block .waitStart 0 [] w1).frameBuf[0] = 0xAA ∧ 63 < 64 := by
  decide +kernel
/-- Every clause, at both ends of its counts. -/
theorem witness_FeedCommand :
    (idle.asmState = .waitStart ∧ (0xAB : Byte) ≠ 0xAA) ∧
    (∀ c ∈ [(1 : BitVec 7), 4], (1 ≤ (block .readHeader c w1 []).asmCount.toNat ∧
      (block .readHeader c w1 []).asmCount.toNat ≤ 4) ∧ (block .readHeader c w1 []).asmState = .readHeader) ∧
    (∀ c ∈ [(5 : BitVec 7), 68], (5 ≤ (block .readPayload c w1 []).asmCount.toNat ∧
      (block .readPayload c w1 []).asmCount.toNat ≤ 68) ∧ (block .readPayload c w1 []).asmState = .readPayload) ∧
    ((block .readCrc 69 w1 []).asmCount.toNat = 69 ∧ (block .readCrc 69 w1 []).asmState = .readCrc) ∧
    ((block .readCrc 70 w1 []).asmCount.toNat = 70 ∧ (block .readCrc 70 w1 []).asmState = .readCrc) := by decide
theorem witness_FeedWholeFrame : idle.asmState = .waitStart ∧ (frameOf w1)[0] = 0xAA := by decide +kernel
/-- An assembly with one byte to come, and none fed; and one with its sentinel only, fed 69 bytes. -/
theorem witness_NoResynchronisation : (block .readCrc 70 (w1.take 70) []).Inv ∧
    (block .readCrc 70 (w1.take 70) []).asmState ≠ .waitStart ∧
    (block .readCrc 70 (w1.take 70) []).asmCount.toNat + ([] : List Byte).length ≤ 70 ∧
    (block .readHeader 1 [0xAA] []).Inv ∧ (block .readHeader 1 [0xAA] []).asmState ≠ .waitStart ∧
    (block .readHeader 1 [0xAA] []).asmCount.toNat + (List.replicate 69 (0xAA : Byte)).length ≤ 70 :=
  ⟨inv_readCrc, by decide, by decide,
    ⟨by decide, fun _ => by decide +kernel, by decide, fun _ h => absurd h (List.not_mem_nil)⟩, by decide,
    by decide +kernel⟩
theorem witness_NoiseWithoutSentinelDiscarded : idle.asmState = .waitStart ∧ (0xAA : Byte) ∉ [0xA9, 0xAB, 0x00] := by
  decide
theorem witness_TimeoutRecovery : idle.asmState = .waitStart ∧ (w1.take 70).head? = some 0xAA ∧
    (w1.take 70).length ≤ 70 ∧ (frameOf w1)[0] = 0xAA := by decide +kernel
/-- The ends of the KEY range and of the unmapped ranges. -/
theorem witness_RegReadCommand :
    (∀ a ∈ [(0x10 : Byte), 0x1F], 0x10 ≤ a.toNat ∧ a.toNat ≤ 0x1F) ∧
    (∀ a ∈ [(0x05 : Byte), 0x0F, 0x20, 0xFF], (0x05 ≤ a ∧ a ≤ 0x0F) ∨ 0x20 ≤ a) ∧
    (∀ a ∈ [(0x04 : Byte), 0x10, 0x1F], ¬((0x05 ≤ a ∧ a ≤ 0x0F) ∨ 0x20 ≤ a)) := by decide
theorem witness_RegWriteCommand : ∀ a ∈ [(0x00 : Byte), 0x01, 0x05, 0x10, 0xFF], a ≠ 0x02 ∧ a ≠ 0x03 ∧ a ≠ 0x04 := by
  decide
theorem witness_StepKeepsInvariant : ∃ t, step (block .readCrc 70 (w1.take 70) []) = .next t ∧
    (block .readCrc 70 (w1.take 70) []).Inv := ⟨_, rfl, inv_readCrc⟩
theorem witness_ResetSignalValues : ∃ t, t = resetSignal 0 true { idle with requests := [0x11, 0x13] } := ⟨_, rfl⟩
theorem witness_ResetSignalPort :
    ({ idle with requests := [0x11, 0x13] } : State).requests = 0x11 :: [0x13] ∧ lengthByOpcode 0x11 [0x13] = 1 :=
  ⟨rfl, rfl⟩
theorem witness_MnemonicFormReadsBack : (Instr.prepare 0x02 0xFF 0x04 [0x55, 0x2A]).wellFormed = true := by decide
theorem witness_WritersOfEachElement : (∃ t, exec (.regWrite 0x03 0x09) idle = .next t) ∧
    (∀ v, Instr.regWrite 0x03 0x09 ≠ .regWrite 0x02 v) ∧ (∀ b, Instr.regWrite 0x03 0x09 ≠ .feed b) :=
  ⟨⟨_, rfl⟩, fun v h => by simp at h, fun b h => by simp at h⟩
theorem witness_DefaultTargetUnread : Instr.regRead 0x03 ≠ .regRead 0x04 ∧ Instr.validate ≠ .regRead 0x04 := by decide
theorem witness_sentinel : (frameOf w1)[0] = (block .readHeader 1 [0xAA] []).asmBuf[0] := by decide +kernel
/-- Two assembly buffers that agree below the cursor only. -/
theorem witness_StaleAssemblyBytesUnobservable : (block .readHeader 1 [0xAA] []).Inv ∧
    (∀ (i : Nat) (h : i < 71), i < (block .readHeader 1 [0xAA] []).asmCount.toNat →
      (frameOf w1)[i] = (block .readHeader 1 [0xAA] []).asmBuf[i]) := by
  refine ⟨⟨by decide, fun _ => by decide +kernel, by decide, fun _ h => absurd h (List.not_mem_nil)⟩, fun i h hi => ?_⟩
  have h1 : i < 1 := hi
  obtain rfl : i = 0 := by omega
  exact witness_sentinel
theorem witness_InstancesIndependent : ∃ q, Platform.stepLink (nLinks := 2) (Vector.ofFn fun _ => idle) 1 = .next q :=
  ⟨_, rfl⟩
/-- The hypothesis of each clause, for any threshold. -/
theorem witness_TimeoutDutyIsAsmReset :
    (Config.timeoutMs < Config.timeoutMs + 1 ∧ (block .readHeader 1 [0xAA] []).asmState ≠ .waitStart) ∧
    ¬(Config.timeoutMs < Config.timeoutMs ∧ idle.asmState ≠ .waitStart) :=
  ⟨⟨Nat.lt_succ_self _, by decide⟩, fun h => absurd h.1 (Nat.lt_irrefl _)⟩

end Sys2Proof.Tests
end

section
/-! SUPPORT. The gaps of the opcode map, the packet length by value, and what a non-empty byte string decodes to
(spec/30_encoding.md R76 to R79, R86, R88); with them O3, O4 and O5. -/

namespace Sys2Proof

open Sys2Proof.Machine Sys2Proof.Rule

/-- R76, R79: the ranges R79 lists are exactly the bytes that are no row's opcode. -/
theorem illegalOpcode_iff_forall_ne (op : Byte) : illegalOpcode op ↔ ∀ o ∈ Opcode.all, op ≠ o.code := by
  simp [illegalOpcode, Opcode.all, Opcode.code, BitVec.le_def, ← BitVec.toNat_inj]
  omega

/-- R79: the illegal opcodes are the bytes that select no row. -/
theorem illegalOpcode_iff_ofByte (op : Byte) : illegalOpcode op ↔ Opcode.ofByte op = none := by
  simp [illegalOpcode_iff_forall_ne, Opcode.ofByte, @eq_comm _ op]

/-- R76, R79: a byte is illegal or the opcode of a row. -/
theorem illegalOpcode_or_code (op : Byte) : illegalOpcode op ∨ ∃ o : Opcode, op = o.code := by
  cases h : Opcode.ofByte op with
  | none => exact .inl ((illegalOpcode_iff_ofByte op).mpr h)
  | some o => exact .inr ⟨o, Opcode.code_of_ofByte op o h⟩

/-- R79: an illegal opcode is decoded as such, whatever follows it. -/
theorem decode_of_illegalOpcode {op : Byte} (h : illegalOpcode op) (bs : List Byte) :
    decode (op :: bs) = .illegal op bs := by
  simp [decode, (illegalOpcode_iff_ofByte op).mp h]

/-- R88: a defined opcode whose operands do not decode starts a truncated packet. -/
theorem decode_cons_none {o : Opcode} {bs : List Byte} (h : decodeOperands o bs = none) :
    decode (o.code :: bs) = .truncated := by
  simp [decode, h]

/-- R76: a defined opcode is never decoded as illegal. -/
theorem decode_code_ne_illegal (o : Opcode) (bs rest : List Byte) (op : Byte) :
    decode (o.code :: bs) ≠ .illegal op rest := by
  cases h : decodeOperands o bs with
  | none => simp [decode_cons_none h]
  | some r => simp [decode_cons o bs r.2 r.1 h]

/-- R79: an illegal opcode is one byte long. -/
theorem lengthByOpcode_of_illegalOpcode {op : Byte} (h : illegalOpcode op) (bs : List Byte) :
    lengthByOpcode op bs = 1 := by
  simp [illegalOpcode_iff_forall_ne, Opcode.all, Opcode.code] at h
  simp [lengthByOpcode, h]

/-- R78: for a defined opcode the length by value is the decoder's packet length. -/
theorem lengthByOpcode_code (o : Opcode) (bs : List Byte) :
    lengthByOpcode o.code bs = packetLength (o.code :: bs) := by
  cases o <;> rfl

/-- R76, R77: operand bytes that decode are those of the command's own encoding, and the command has a packet. -/
theorem decodeOperands_eq_some {o : Opcode} {bs rest : List Byte} {i : Instr}
    (h : decodeOperands o bs = some (i, rest)) : i.wellFormed = true ∧ o.code :: bs = encode i ++ rest := by
  cases o <;> simp only [decodeOperands, Option.map_eq_some_iff, Option.some.injEq, Prod.mk.injEq] at h
  case asmReset | validate | frameRead =>
    obtain ⟨rfl, rfl⟩ := h
    exact ⟨rfl, rfl⟩
  case feed | regRead | regWrite =>
    split at h
    · cases h
      exact ⟨rfl, rfl⟩
    · cases h
  case checksum | obfuscate | deobfuscate =>
    obtain ⟨⟨d, r⟩, hd, rfl, rfl⟩ := h
    obtain ⟨rfl, hfits⟩ := takeCounted_eq_some _ _ _ hd
    exact ⟨hfits, rfl⟩
  case prepare =>
    split at h
    · obtain ⟨⟨p, r⟩, hp, hpr⟩ := Option.map_eq_some_iff.mp h
      obtain ⟨rfl, hfits⟩ := takeCounted_eq_some _ _ _ hp
      cases hpr
      exact ⟨hfits, rfl⟩
    · cases h
  case frameWrite | setKey =>
    obtain ⟨⟨f, r⟩, hf, rfl, rfl⟩ := h
    rw [takeBuffer_eq_some _ _ _ hf]
    exact ⟨rfl, rfl⟩

/-- R78: a command takes exactly the bytes of its packet length. -/
theorem decodeOperands_rest {o : Opcode} {bs rest : List Byte} {i : Instr}
    (h : decodeOperands o bs = some (i, rest)) : (o.code :: bs).drop (packetLength (o.code :: bs)) = rest := by
  obtain ⟨hwf, hbs⟩ := decodeOperands_eq_some h
  rw [hbs, packetLength_encode i rest hwf, List.drop_left]

end Sys2Proof

namespace Sys2Proof.Machine

/-- R79: a step on an illegal opcode takes that packet and answers it. -/
theorem step_of_decode_illegal {s : State} {op : Byte} {rest : List Byte} (h : decode s.requests = .illegal op rest) :
    step s = .next (answerIllegal { s with requests := rest }) := by
  simp [step, h]

/-- R88: a step on a packet that has not arrived whole is refused. -/
theorem step_of_decode_truncated {s : State} (h : decode s.requests = .truncated) :
    step s = .refused .truncatedPacket := by
  simp [step, h]

end Sys2Proof.Machine

section

open Sys2Proof Sys2Proof.Machine Sys2Proof.Rule

/-- Settles O3: a byte outside R79's ranges is a row's opcode, which is never decoded as illegal. -/
theorem illegalOpcodeAnswered : Obligations.IllegalOpcodeAnswered := by
  unfold Obligations.IllegalOpcodeAnswered
  refine ⟨fun op rest => ⟨fun h => ?_, fun h => decode_of_illegalOpcode h rest⟩, fun s op rest hop hreq => ?_⟩
  · rcases illegalOpcode_or_code op with hop | ⟨o, rfl⟩
    · exact hop
    · exact absurd h (decode_code_ne_illegal o rest rest o.code)
  · have hdec : decode s.requests = .illegal op rest := hreq ▸ decode_of_illegalOpcode hop rest
    exact step_of_decode_illegal hdec

/-- Settles O4: with its whole packet there, a defined opcode's operands decode, and they leave what lies past the
packet length. -/
theorem wholePacketDecodes : Obligations.WholePacketDecodes := by
  unfold Obligations.WholePacketDecodes
  intro op bs hlen
  rcases illegalOpcode_or_code op with hop | ⟨o, rfl⟩
  · rw [lengthByOpcode_of_illegalOpcode hop]
    exact .inr (decode_of_illegalOpcode hop bs)
  · rw [lengthByOpcode_code] at hlen ⊢
    cases h : decodeOperands o bs with
    | none => exact absurd ((decodeOperands_none o bs).mp h) (Nat.not_lt.mpr hlen)
    | some r =>
      rw [decodeOperands_rest h]
      exact .inl ⟨r.1, decode_cons o bs r.2 r.1 h⟩

/-- Settles O5: only a defined opcode asks for bytes beyond itself, and its operands fail to decode when they are fewer
than the packet length asks for. -/
theorem truncatedPacketRefused : Obligations.TruncatedPacketRefused := by
  unfold Obligations.TruncatedPacketRefused
  intro s op bs hreq hlen
  have hdec : decode s.requests = .truncated := by
    rw [hreq]
    rcases illegalOpcode_or_code op with hop | ⟨o, rfl⟩
    · rw [lengthByOpcode_of_illegalOpcode hop, List.length_cons] at hlen
      omega
    · rw [lengthByOpcode_code] at hlen
      exact decode_cons_none ((decodeOperands_none o bs).mpr hlen)
  exact ⟨hdec, step_of_decode_truncated hdec⟩

end

end

section
/-! SUPPORT. The engine's procedure byte by byte and the command CHECKSUM (spec/40_checksum.md R100, R101, R105); with
them O12 and O16. -/

namespace Sys2Proof.Machine

/-- R100: the rule's mask to 16 bits drops nothing of a 16-bit register, so a round of the rule is a round of the engine. -/
theorem roundByRule_eq_crcRound (r : Word16) : Rule.roundByRule r = crcRound r := by
  have hmask : (r <<< 1) &&& (0xFFFF : Word16) = r <<< 1 := BitVec.and_allOnes
  rw [Rule.roundByRule, hmask, crcRound, crcPoly]

/-- R101: no byte leaves the seed in the register. -/
@[simp] theorem crc16_nil : crc16 [] = crcSeed := rfl

/-- R100: one more byte is taken in from the checksum of the bytes before it. -/
theorem crc16_append_singleton (d : List Byte) (b : Byte) : crc16 (d ++ [b]) = crcByte (crc16 d) b :=
  crcFrom_append crcSeed d [b]

/-- R105: CHECKSUM is one OK response, which carries the checksum. -/
theorem exec_checksum (d : List Byte) (s : State) :
    exec (.checksum d) s = .next (respond .ok (le16 (crc16 d)) s) := rfl

end Sys2Proof.Machine

section

open Sys2Proof Sys2Proof.Machine Sys2Proof.Rule

/-- Settles O12: the last byte is taken in by the engine's eight rounds, and each is a round of the rule. -/
theorem checksumProcedure : Obligations.ChecksumProcedure := by
  unfold Obligations.ChecksumProcedure
  refine ⟨crc16_nil, fun d b => ?_⟩
  simp only [roundByRule_eq_crcRound]
  exact crc16_append_singleton d b

/-- Settles O16: the one response is the status code of OK and the checksum's two bytes, low byte first. -/
theorem checksumCommand : Obligations.ChecksumCommand := by
  unfold Obligations.ChecksumCommand
  intro d s
  rw [exec_checksum, respond, le16, Status.code]

end

end

section
/-! SUPPORT. The obfuscator's two directions byte by byte with the rule's rotation, and the commands OBFUSCATE and
DEOBFUSCATE (spec/41_obfuscator.md R120, R121, R125, R126); with them O17 and O18. -/

namespace Sys2Proof.Machine

variable {d : List Byte} {i : Nat}

/-- R9, R120: byte `i` of the obfuscation, by the rotation of bit vectors. -/
theorem getElem?_obf (k : Key) (h : i < d.length) :
    (obf d k)[i]? = some ((d[i] ^^^ keyByte k i).rotateLeft 3) := by
  have hi : i < (obf d k).length := (length_obf d k).symm ▸ h
  rw [List.getElem?_eq_getElem hi, getElem_obf, rotl8_rot]

/-- R9, R121: byte `i` of the de-obfuscation, by the rotation of bit vectors. -/
theorem getElem?_deobf (k : Key) (h : i < d.length) :
    (deobf d k)[i]? = some (d[i].rotateRight 3 ^^^ keyByte k i) := by
  have hi : i < (deobf d k).length := (length_deobf d k).symm ▸ h
  rw [List.getElem?_eq_getElem hi, getElem_deobf, rotr8_rot]

/-- R125: OBFUSCATE is one OK response, which carries the obfuscation under KEY. -/
theorem exec_obfuscate (d : List Byte) (s : State) :
    exec (.obfuscate d) s = .next (respond .ok (obf d s.key) s) := rfl

/-- R126: DEOBFUSCATE is one OK response, which carries the de-obfuscation under KEY. -/
theorem exec_deobfuscate (d : List Byte) (s : State) :
    exec (.deobfuscate d) s = .next (respond .ok (deobf d s.key) s) := rfl

end Sys2Proof.Machine

section

open Sys2Proof Sys2Proof.Machine

/-- Settles O17: the answer's bytes are the obfuscation of the operand under KEY. -/
theorem obfuscateCommand : Obligations.ObfuscateCommand := by
  unfold Obligations.ObfuscateCommand
  intro d s
  refine ⟨obf d s.key, ?_, length_obf d s.key, fun i h => getElem?_obf s.key h⟩
  rw [exec_obfuscate, respond, Status.code]

/-- Settles O18: the answer's bytes are the de-obfuscation of the operand under KEY. -/
theorem deobfuscateCommand : Obligations.DeobfuscateCommand := by
  unfold Obligations.DeobfuscateCommand
  intro d s
  refine ⟨deobf d s.key, ?_, length_deobf d s.key, fun i h => getElem?_deobf s.key h⟩
  rw [exec_deobfuscate, respond, Status.code]

end

end

section
/-! SUPPORT. The two outcomes of PREPARE, the wire form of a frame byte by byte, and a validation behind a good start
byte (spec/42_codec.md R140, R149, R152, R153); with them O22 and O23. -/

namespace Sys2Proof.Machine

/-- R11: each byte of a buffer after a write that covers it whole. -/
theorem getElem_memWrite_whole {n : Nat} (buf : Vector Byte n) (v : List Byte) (hv : v.length = n) (i : Nat)
    (h : i < n) : (memWrite buf 0 v)[i] = v[i] := by
  simpa using getElem_memWrite_inside buf 0 v i (by omega) (by omega)

/-- R140: the plaintext bytes of the engine are those of the rule. -/
theorem plainFrame_eq_plaintext69 (src tgt ty : Byte) (p : List Byte) :
    plainFrame src tgt ty p = Rule.plaintext69 src tgt ty p := rfl

section

variable {plain : List Byte} (k : Key) (h : plain.length = 69)
include h

/-- R140: an offset below the frame size is one of the wire form. -/
theorem lt_length_wireForm {i : Nat} (hi : i < 71) : i < (wireForm plain k).length :=
  hi.trans_eq (length_wireForm plain k h).symm

/-- R124, R140: the header goes on the wire as it is. -/
theorem getElem_wireForm_header (i : Nat) (hi : i < 5) :
    (wireForm plain k)[i]'(lt_length_wireForm k h (by omega)) = plain[i] := by
  have hlen : i < (plain.take 5).length := by rw [List.length_take]; omega
  simp only [wireForm, List.append_assoc]
  rw [List.getElem_append_left hlen, List.getElem_take]

/-- R140: the last two wire bytes are the checksum of the plaintext, low byte first. -/
theorem getElem_wireForm_checksum (j : Nat) (hj : j < 2) :
    (wireForm plain k)[69 + j]'(lt_length_wireForm k h (by omega)) =
      (le16 (crc16 plain))[j]'(by simpa [le16] using hj) := by
  have hlen : (plain.take 5 ++ obf (plain.drop 5) k).length = 69 := by simp [h]
  simp only [wireForm, payloadOff]
  rw [List.getElem_append_right (by omega)]
  simp only [hlen, Nat.add_sub_cancel_left]

end

section

variable {p : List Byte} (src tgt ty : Byte) (s : State)

/-- R140: a payload past the capacity is answered OVERSIZE. -/
theorem exec_prepare_oversize (h : payloadCap < p.length) :
    exec (.prepare src tgt ty p) s = .next (endWithError .oversize s) :=
  if_pos h

/-- R140: a payload within the capacity is put in wire form into FRAME_BUF, which is the OK response's data. -/
theorem exec_prepare_ok (h : p.length ≤ payloadCap) :
    exec (.prepare src tgt ty p) s =
      .next (respond .ok (wireForm (plainFrame src tgt ty p) s.key)
        { s with frameBuf := memWrite s.frameBuf 0 (wireForm (plainFrame src tgt ty p) s.key) }) :=
  if_neg (Nat.not_lt.mpr h)

end

section

variable (s : State) {f : Frame}

/-- R153: a frame without the sentinel comes back as it was. -/
theorem checks_of_ne_sentinel (h : frameStart f ≠ sentinel) : checks s f = (.invalidStart, f) :=
  if_pos h

/-- R153: behind the sentinel the checksum comes first, then the address. -/
theorem checks_of_sentinel (h : frameStart f = sentinel) :
    checks s f =
      if frameCrc (deobfFrame f s.key) ≠ frameChecksum f then (.invalidChecksum, deobfFrame f s.key)
      else if filterEn s && !accept s (frameTarget f) then (.misaddressed, deobfFrame f s.key)
      else (.ok, deobfFrame f s.key) :=
  if_neg (not_not.mpr h)

/-- R152: the filter, when enabled, rejects a target that is neither this node nor the broadcast id. -/
theorem filter_rejects_iff (t : Byte) :
    (filterEn s && !accept s t) = true ↔ s.ctrl.getLsbD 0 = true ∧ ¬(t = s.localId ∨ t = 0xFF) := by
  simp [filterEn, accept, broadcast]

end

end Sys2Proof.Machine

section

open Sys2Proof Sys2Proof.Machine Sys2Proof.Rule

/-- Settles O22: the accepted branch's frame is the wire form, read off field by field. -/
theorem prepareCommand : Obligations.PrepareCommand := by
  unfold Obligations.PrepareCommand
  intro src tgt ty p s
  refine ⟨exec_prepare_oversize src tgt ty s, fun hp => ?_⟩
  rw [← plainFrame_eq_plaintext69]
  have hplain : (plainFrame src tgt ty p).length = 69 := length_plainFrame src tgt ty p hp
  have hwire := length_wireForm (plainFrame src tgt ty p) s.key hplain
  have hbyte := getElem_memWrite_whole s.frameBuf _ hwire
  have hheader i (hi : i < 5) := (hbyte i (by omega)).trans (getElem_wireForm_header s.key hplain i hi)
  have hchecksum j (hj : j < 2) := (hbyte (69 + j) (by omega)).trans (getElem_wireForm_checksum s.key hplain j hj)
  refine ⟨memWrite s.frameBuf 0 (wireForm (plainFrame src tgt ty p) s.key), ?_, hheader 0 (by decide),
    hheader 1 (by decide), hheader 2 (by decide), hheader 3 (by decide), hheader 4 (by decide), fun i hi => ?_,
    hchecksum 0 (by decide), hchecksum 1 (by decide)⟩
  · rw [exec_prepare_ok src tgt ty s hp, toList_memWrite_whole _ _ hwire, respond, Status.code]
  · rw [hbyte, getElem_wireForm_payload _ _ hplain i hi, getElem_plainFrame_payload _ _ _ _ i hi hp, rotl8_rot,
      keyByte]

/-- Settles O23: behind a good start byte the frame is the one with its payload de-obfuscated, and the rule's two tests
are the engine's. -/
theorem validationChecks : Obligations.ValidationChecks := by
  unfold Obligations.ValidationChecks
  intro s f
  refine ⟨checks_of_ne_sentinel s, fun hstart => ⟨deobfFrame f s.key, getElem_deobfFrame_outside f s.key,
    fun i hi => ?_, ?_⟩⟩
  · rw [getElem_deobfFrame_inside f s.key i hi, rotr8_rot, keyByte]
  · rw [checks_of_sentinel s hstart, frameCrc, memRead_prefix, frameChecksum, fromLe16, frameTarget]
    simp only [filter_rejects_iff]

end

end

section
/-! SUPPORT. What FEED's appends and its completion leave, as one update of the state each, and the command ASM_RESET
(spec/43_assembler.md R170, R172, R180); with them O30 and O34. -/

namespace Sys2Proof.Machine

variable (b : Byte) (s : State)

/-- R170: FEED is the assembler's step on its byte. -/
theorem exec_feed : exec (.feed b) s = execFeed b s := rfl

/-- R180: ASM_RESET is one OK response over the cleared assembler. -/
theorem exec_asmReset :
    exec .asmReset s = .next (respond .ok [] { s with asmBuf := zeroFrame, asmCount := 0, asmState := .waitStart }) :=
  rfl

/-- R25: the cursor after a byte, in the register's 7 bits. -/
theorem ofNat_nextCount : BitVec.ofNat 7 (nextCount s) = s.asmCount + 1 := by
  simp [nextCount, BitVec.ofNat_add]

/-- R170: the byte that makes the cursor reach `n + 1` is the one fed at count `n`. -/
theorem nextCount_eq_iff (n : BitVec 7) : nextCount s = n.toNat + 1 ↔ s.asmCount = n := by
  rw [nextCount, Nat.add_right_cancel_iff, BitVec.toNat_inj]

/-- R170: a new assembly is the zeroed buffer with the sentinel at offset 0. -/
theorem startAssembly_eq :
    startAssembly s =
      { s with asmBuf := (Vector.replicate 71 0x00).set 0 0xAA, asmCount := 1, asmState := .readHeader } := by
  rw [startAssembly, memWrite_single _ 0 _ (by decide), zeroFrame]
  rfl

/-- R81: a validation's answer is the rule's. -/
theorem respondFrame_eq_validationAnswer (st : Status) (f : Frame) :
    respondFrame st f s = { s with responses := s.responses ++ [Rule.validationAnswer st f] } := by
  rw [respondFrame_eq, respond, Rule.validationAnswer]
  split <;> simp [*, Status.code]

/-- R170: completion leaves the validated frame in ASM_BUF and the assembler at rest, with the rule's answer. -/
theorem completeFrame_eq :
    completeFrame s =
      { s with
        asmBuf := (checks s s.asmBuf).2
        asmCount := 0
        asmState := .waitStart
        responses := s.responses ++ [Rule.validationAnswer (checks s s.asmBuf).1 (checks s s.asmBuf).2] } := by
  rw [completeFrame, respondFrame_eq_validationAnswer]

variable {s} (hc : s.asmCount.toNat < 71)
include hc

/-- R170: an append at a cursor within the buffer sets one byte and advances; the byte fed at count `n` moves the
state. -/
theorem appendByte_eq (next : AsmState) (limit : Nat) (n : BitVec 7) (hn : limit = n.toNat + 1) :
    appendByte b limit next s =
      { s with
        asmBuf := s.asmBuf.set s.asmCount.toNat b
        asmCount := s.asmCount + 1
        asmState := if s.asmCount = n then next else s.asmState } := by
  subst hn
  simp only [appendByte, storeByte, memWrite_single _ _ _ hc, ofNat_nextCount, nextCount_eq_iff]

/-- R170: the completing byte's store sets one byte. -/
theorem storeByte_eq : storeByte b s = { s with asmBuf := s.asmBuf.set s.asmCount.toNat b } := by
  rw [storeByte, memWrite_single _ _ _ hc]

end Sys2Proof.Machine

section

open Sys2Proof Sys2Proof.Machine Sys2Proof.Rule

/-- Settles O34: the cleared buffer is 71 zero bytes, and the one response is the status code of OK. -/
theorem asmResetCommand : Obligations.AsmResetCommand := by
  unfold Obligations.AsmResetCommand
  intro s
  rw [exec_asmReset, respond, zeroFrame, Status.code]

/-- Settles O30: one clause for each branch of FEED; at a count the invariant allows, an append is one byte set and the
cursor plus one. -/
theorem feedCommand : Obligations.FeedCommand := by
  unfold Obligations.FeedCommand
  intro b s
  rw [exec_feed]
  refine ⟨fun hst hb => ?discard, fun hst hb => ?start, fun hcount hst => ?header, fun hcount hst => ?payload,
    fun hcount hst => ?crc, fun hcount hst => ?complete⟩
  case discard => rw [execFeed_discard b s hst hb, respond, Status.code]
  case start =>
    subst hb
    exact (execFeed_start s hst).trans (by rw [startAssembly_eq, respond, Status.code])
  case header =>
    have hin : s.asmCount.toNat < 71 := by omega
    rw [execFeed_header b s hst, appendByte_eq b hin _ payloadOff 4 rfl, hst, respond, Status.code]
  case payload =>
    have hin : s.asmCount.toNat < 71 := by omega
    rw [execFeed_payload b s hst, appendByte_eq b hin _ crcOff 68 rfl, hst, respond, Status.code]
  case crc =>
    have hlast : nextCount s < frameSize := by rw [nextCount, hcount]; decide
    have hin : s.asmCount.toNat < 71 := by omega
    have hnext : s.asmCount + 1 = 70 := by rw [← ofNat_nextCount, nextCount, hcount]; rfl
    rw [execFeed_crc b s hst hlast, appendByte_eq b hin _ frameSize 70 rfl, respond, Status.code]
    simp only [hcount, hnext, hst, ite_self]
  case complete =>
    have hlast : ¬nextCount s < frameSize := by rw [nextCount, hcount]; decide
    have hin : s.asmCount.toNat < 71 := by omega
    have hchecks (f : Frame) : checks { s with asmBuf := s.asmBuf.set 70 b } f = checks s f :=
      checks_congr _ _ f rfl rfl rfl
    rw [execFeed_complete b s hst hlast, completeFrame_eq, storeByte_eq b hin]
    simp only [hcount, hchecks]

end

end

section
/-! SUPPORT. The register map read and written, address by address, and the two commands as one response over it
(spec/10_state.md R24, R32, R33; spec/44_registers.md R200, R201); with them O36 and O37. -/

namespace Sys2Proof.Machine

variable (s : State) (a v : Byte)

/-- R32: the reserved bits of CTRL read as 0, so the value read is FILTER_EN as a number. -/
theorem ctrlValue_eq_ite : ctrlValue s = if s.ctrl.getLsbD 0 then 0x01 else 0x00 := by
  have hbit : ctrlValue s = (BitVec.ofBool (s.ctrl.getLsbD 0)).setWidth 8 :=
    BitVec.and_one_eq_setWidth_ofBool_getLsbD
  rw [hbit]
  cases s.ctrl.getLsbD 0 <;> rfl

@[simp] theorem readReg_asmState : readReg s 0x00 = some (s.asmState.code.setWidth 8) := rfl
@[simp] theorem readReg_asmCount : readReg s 0x01 = some (s.asmCount.setWidth 8) := rfl
@[simp] theorem readReg_ctrl : readReg s 0x02 = some (ctrlValue s) := rfl
@[simp] theorem readReg_localId : readReg s 0x03 = some s.localId := rfl
@[simp] theorem readReg_defaultTarget : readReg s 0x04 = some s.defaultTarget := rfl

@[simp] theorem writeReg_ctrl : writeReg s 0x02 v = some { s with ctrl := v &&& 0x01 } := rfl
@[simp] theorem writeReg_localId : writeReg s 0x03 v = some { s with localId := v } := rfl
@[simp] theorem writeReg_defaultTarget : writeReg s 0x04 v = some { s with defaultTarget := v } := rfl

variable {a}

/-- R33: the five single registers lie below the addresses of KEY. -/
theorem readReg_of_five_le (h : 0x05 ≤ a.toNat) :
    readReg s a =
      if hk : 0x10 ≤ a.toNat ∧ a.toNat ≤ 0x1F then some (s.key[a.toNat - 0x10]'(by omega)) else none := by
  have hne (n : Byte) (hn : n.toNat < 0x05) : a ≠ n := by rintro rfl; omega
  rw [readReg, if_neg (hne 0x00 (by decide)), if_neg (hne 0x01 (by decide)), if_neg (hne 0x02 (by decide)),
    if_neg (hne 0x03 (by decide)), if_neg (hne 0x04 (by decide))]

/-- R33: the addresses of KEY. -/
theorem readReg_key (h : 0x10 ≤ a.toNat ∧ a.toNat ≤ 0x1F) :
    readReg s a = some (s.key[a.toNat - 0x10]'(by omega)) := by
  rw [readReg_of_five_le s (by omega), dif_pos h]

/-- R33, R200: the unmapped addresses. -/
theorem readReg_unmapped (h : (0x05 ≤ a ∧ a ≤ 0x0F) ∨ 0x20 ≤ a) : readReg s a = none := by
  have hlow : 0x05 ≤ a.toNat := by bv_omega
  have hkey : ¬(0x10 ≤ a.toNat ∧ a.toNat ≤ 0x1F) := by bv_omega
  rw [readReg_of_five_le s hlow, dif_neg hkey]

/-- R33, R201: the addresses that are read-only or unmapped. -/
theorem writeReg_of_ne (h2 : a ≠ 0x02) (h3 : a ≠ 0x03) (h4 : a ≠ 0x04) : writeReg s a v = none := by
  rw [writeReg, if_neg h2, if_neg h3, if_neg h4]

/-- R200: the response to REG_READ for what the register map holds at the address. -/
def readAnswer : Option Byte → Packet
  | some v => [0x00, v]
  | none => [0x07]

@[simp] theorem readAnswer_some : readAnswer (some v) = [0x00, v] := rfl
@[simp] theorem readAnswer_none : readAnswer none = [0x07] := rfl

/-- R200: REG_READ is one response over an unchanged state, whatever the address. -/
theorem exec_regRead :
    exec (.regRead a) s = .next { s with responses := s.responses ++ [readAnswer (readReg s a)] } := by
  rw [exec, execRegRead]
  cases readReg s a with
  | some v => rfl
  | none => rfl

variable {s v}

/-- R201: where the register map takes the write, the written state is answered OK. -/
theorem exec_regWrite_ok {t : State} (h : writeReg s a v = some t) :
    exec (.regWrite a v) s = .next { t with responses := t.responses ++ [[0x00]] } := by
  rw [exec, execRegWrite, h]
  rfl

/-- R201: where it does not, the unchanged state is answered BAD_REGISTER. -/
theorem exec_regWrite_badRegister (h : writeReg s a v = none) :
    exec (.regWrite a v) s = .next { s with responses := s.responses ++ [[0x07]] } := by
  rw [exec, execRegWrite, h]
  rfl

end Sys2Proof.Machine

section

open Sys2Proof Sys2Proof.Machine

/-- Settles O36: the one response is the answer for the register map's entry, read off address by address. -/
theorem regReadCommand : Obligations.RegReadCommand := by
  unfold Obligations.RegReadCommand
  intro a s
  refine ⟨readAnswer (readReg s a), exec_regRead s, ?asmState, ?asmCount, ?ctrl, ?localId, ?defaultTarget,
    fun h => ?key, fun h => ?unmapped⟩
  case asmState =>
    rintro rfl
    rw [readReg_asmState, readAnswer_some]
    cases s.asmState <;> rfl
  case asmCount =>
    rintro rfl
    rw [readReg_asmCount, readAnswer_some, BitVec.ofNat_toNat]
  case ctrl =>
    rintro rfl
    rw [readReg_ctrl, readAnswer_some, ctrlValue_eq_ite]
  case localId =>
    rintro rfl
    rw [readReg_localId, readAnswer_some]
  case defaultTarget =>
    rintro rfl
    rw [readReg_defaultTarget, readAnswer_some]
  case key => rw [readReg_key s h, readAnswer_some]
  case unmapped => rw [readReg_unmapped s h, readAnswer_none]

/-- Settles O37: one clause for each writable register, and the rest of the register map refuses the write. -/
theorem regWriteCommand : Obligations.RegWriteCommand := by
  unfold Obligations.RegWriteCommand
  intro a v s
  refine ⟨?ctrl, ?localId, ?defaultTarget, fun h2 h3 h4 => ?badRegister⟩
  case ctrl =>
    rintro rfl
    exact exec_regWrite_ok (writeReg_ctrl s v)
  case localId =>
    rintro rfl
    exact exec_regWrite_ok (writeReg_localId s v)
  case defaultTarget =>
    rintro rfl
    exact exec_regWrite_ok (writeReg_defaultTarget s v)
  case badRegister => exact exec_regWrite_badRegister (writeReg_of_ne s v h2 h3 h4)

end

end

section
/-! SUPPORT. What the reset signal leaves in each element, and that the responses already sent stay
(spec/70_reset_and_hazards.md R250); with it O40. -/

namespace Sys2Proof.Machine

variable (link : Nat) (inProgress : Bool) (s : State)

@[simp] theorem resetSignal_asmState : (resetSignal link inProgress s).asmState = .waitStart := rfl
@[simp] theorem resetSignal_asmCount : (resetSignal link inProgress s).asmCount = 0 := rfl
@[simp] theorem resetSignal_asmBuf : (resetSignal link inProgress s).asmBuf = zeroFrame := rfl
@[simp] theorem resetSignal_frameBuf : (resetSignal link inProgress s).frameBuf = zeroFrame := rfl
@[simp] theorem resetSignal_key : (resetSignal link inProgress s).key = Config.keyReset link := rfl
@[simp] theorem resetSignal_localId : (resetSignal link inProgress s).localId = Config.localIdReset link := rfl
@[simp] theorem resetSignal_defaultTarget :
    (resetSignal link inProgress s).defaultTarget = Config.defaultTargetReset link := rfl
@[simp] theorem resetSignal_ctrl : (resetSignal link inProgress s).ctrl = 0x00 := rfl
@[simp] theorem resetSignal_responses : (resetSignal link inProgress s).responses = s.responses := rfl

/-- R27, R28: every byte of a cleared frame buffer is 0. -/
@[simp] theorem getElem_zeroFrame (i : Nat) (h : i < 71) : zeroFrame[i] = 0x00 :=
  Vector.getElem_replicate h

end Sys2Proof.Machine

section

open Sys2Proof Sys2Proof.Machine

/-- Settles O40: one clause for each element of the reset signal's state; both frame buffers are the cleared one. -/
theorem resetSignalValues : Obligations.ResetSignalValues := by
  unfold Obligations.ResetSignalValues
  rintro link inProgress s _ rfl
  have hbufs (i : Nat) (h : i < 71) :
      (resetSignal link inProgress s).asmBuf[i] = 0x00 ∧ (resetSignal link inProgress s).frameBuf[i] = 0x00 := by
    simp only [resetSignal_asmBuf, resetSignal_frameBuf, getElem_zeroFrame, and_self]
  exact ⟨resetSignal_asmState link inProgress s, resetSignal_asmCount link inProgress s, hbufs,
    resetSignal_key link inProgress s, resetSignal_localId link inProgress s,
    resetSignal_defaultTarget link inProgress s, resetSignal_ctrl link inProgress s,
    resetSignal_responses link inProgress s⟩

end

end

section
/-! SUPPORT. The two directions between packets and commands, the step on each kind of port, and runs driven packet by
packet (spec/30_encoding.md R75 to R79; spec/20_memory.md R58, R60); with them O1, O2, O6, O7, O8, O9 and O11. -/

namespace Sys2Proof

/-- R76: the row of the opcode map a command belongs to. -/
def Instr.opcode : Instr → Opcode
  | .feed _ => .feed
  | .asmReset => .asmReset
  | .prepare _ _ _ _ => .prepare
  | .validate => .validate
  | .frameWrite _ => .frameWrite
  | .frameRead => .frameRead
  | .checksum _ => .checksum
  | .obfuscate _ => .obfuscate
  | .deobfuscate _ => .deobfuscate
  | .setKey _ => .setKey
  | .regRead _ => .regRead
  | .regWrite _ _ => .regWrite

/-- R76: a packet starts with the opcode of its command. -/
theorem encode_eq_cons (i : Instr) : encode i = i.opcode.code :: (encode i).tail := by
  cases i <;> rfl

/-- R76, R77: the operand bytes of a packet are read back, whatever follows them. -/
theorem decodeOperands_encode (i : Instr) (rest : List Byte) (h : i.wellFormed = true) :
    decodeOperands i.opcode ((encode i).tail ++ rest) = some (i, rest) := by
  cases i with
  | feed | asmReset | validate | frameRead | regRead | regWrite => rfl
  | prepare src tgt ty p =>
    exact congrArg (Option.map fun r => (Instr.prepare src tgt ty r.1, r.2)) (takeCounted_append p rest h)
  | frameWrite f => exact congrArg (Option.map fun r => (Instr.frameWrite r.1, r.2)) (takeBuffer_append f rest)
  | checksum d => exact congrArg (Option.map fun r => (Instr.checksum r.1, r.2)) (takeCounted_append d rest h)
  | obfuscate d => exact congrArg (Option.map fun r => (Instr.obfuscate r.1, r.2)) (takeCounted_append d rest h)
  | deobfuscate d => exact congrArg (Option.map fun r => (Instr.deobfuscate r.1, r.2)) (takeCounted_append d rest h)
  | setKey k => exact congrArg (Option.map fun r => (Instr.setKey r.1, r.2)) (takeBuffer_append k rest)

/-- R76, R77: the decoder gives an encoded command back and leaves what follows its packet. -/
theorem decode_encode_append (i : Instr) (rest : List Byte) (h : i.wellFormed = true) :
    decode (encode i ++ rest) = .command i rest := by
  rw [encode_eq_cons, List.cons_append]
  exact decode_cons i.opcode _ rest i (decodeOperands_encode i rest h)

/-- R76, R86: only the encoding of a command decodes to it, and only commands that have a packet are decoded. -/
theorem wellFormed_and_eq_encode_of_decode {bs rest : List Byte} {i : Instr} (h : decode bs = .command i rest) :
    i.wellFormed = true ∧ bs = encode i ++ rest := by
  obtain ⟨o, bs', rfl, hops⟩ := decode_command h
  exact decodeOperands_eq_some hops

end Sys2Proof

namespace Sys2Proof.Machine

variable {s : State}

/-- R58, R60: a step on a whole command is that command's execution, its packet taken from the port. -/
theorem step_of_decode_command {i : Instr} {rest : List Byte} (h : decode s.requests = .command i rest) :
    step s = exec i { s with requests := rest } := by
  simp [step, h]

/-- R243, R251: a step with nothing at the port leaves the state as it is. -/
theorem step_of_requests_nil (h : s.requests = []) : step s = .next s := by
  simp [step, h, decode]

/-- R58, R75: from an idle port, sending a command's packet and stepping executes the command. -/
theorem step_send_encode {i : Instr} (hs : s.requests = []) (hi : i.wellFormed = true) :
    step (s.send (encode i)) = exec i s := by
  have hdec : decode (s.send (encode i)).requests = .command i [] := by
    rw [send_requests, hs, List.nil_append, ← List.append_nil (encode i)]
    exact decode_encode_append i [] hi
  rw [step_of_decode_command hdec, State.send, ← hs]

end Sys2Proof.Machine

section

open Sys2Proof Sys2Proof.Machine Sys2Proof.Rule

/-- Settles O1: the opcode selects the command's row, and the row's decoder reads its operands back. -/
theorem decodeOfEncode : Obligations.DecodeOfEncode := by
  unfold Obligations.DecodeOfEncode
  exact decode_encode_append

/-- Settles O2: row by row, operands that decode are the encoding's own. -/
theorem encodeOfDecode : Obligations.EncodeOfDecode := by
  unfold Obligations.EncodeOfDecode
  exact fun _ _ _ h => wellFormed_and_eq_encode_of_decode h

/-- Settles O6: the decoder run on each of the eight packets. -/
theorem opcodeMapWords : Obligations.OpcodeMapWords := by
  unfold Obligations.OpcodeMapWords
  decide

/-- Settles O7: the decoded command is the one the step executes. -/
theorem stepRunsDecoded : Obligations.StepRunsDecoded := by
  unfold Obligations.StepRunsDecoded
  exact fun _ _ _ h => step_of_decode_command h

/-- Settles O8: the decoder finds no packet at an empty port. -/
theorem idlePortHoldsState : Obligations.IdlePortHoldsState := by
  unfold Obligations.IdlePortHoldsState
  exact fun _ h => step_of_requests_nil h

/-- Settles O9: a whole packet is a command, which ends in one response over the same port, or an illegal opcode, which
is answered. -/
theorem oneResponsePerPacket : Obligations.OneResponsePerPacket := by
  unfold Obligations.OneResponsePerPacket
  intro s op bs hreq hlen
  rcases wholePacketDecodes op bs hlen with ⟨i, hdec⟩ | hdec
  · rw [← hreq] at hdec
    obtain ⟨t, r, hexec, hport, hresp⟩ := exec_next i { s with requests := s.requests.drop (lengthByOpcode op bs) }
    exact ⟨t, r, (step_of_decode_command hdec).trans hexec, hreq ▸ hport, hresp⟩
  · rw [← hreq] at hdec
    exact ⟨_, _, step_of_decode_illegal hdec, hreq ▸ rfl, rfl⟩

/-- Settles O11: by induction on the commands; each packet is taken whole and leaves the port idle for the next. -/
theorem packetRunIsCommandRun : Obligations.PacketRunIsCommandRun := by
  unfold Obligations.PacketRunIsCommandRun
  intro is
  induction is with
  | nil => exact fun s _ _ => rfl
  | cons i is ih =>
    intro s hwf hs
    obtain ⟨hi, his⟩ := List.forall_mem_cons.mp hwf
    obtain ⟨t, r, hexec, hport, -⟩ := exec_next i s
    rw [List.map_cons, runPackets, runCommands, step_send_encode hs hi, hexec]
    exact ih t his (hport.trans hs)

end

end

section
/-! SUPPORT. The engine as a bit-serial register, and the checksum's answer to a difference between two sequences
(spec/20_memory.md R52; spec/40_checksum.md R100, R104); with them O13, O14 and O15. -/

namespace Sys2Proof.Machine

open Rule

/-- R52: a round on a register with data added is a serial step on the data's leading bit, the data moved up by one. -/
theorem crcRound_xor_eq_serialStep (r x : Word16) :
    crcRound (r ^^^ x) = serialStep r (x.getLsbD 15) ^^^ (x <<< 1) := by
  have hleave : (r ^^^ x).getLsbD 15 = (r.getLsbD 15 != x.getLsbD 15) := BitVec.getLsbD_xor
  rw [crcRound, serialStep, hleave, BitVec.shiftLeft_xor_distrib, crcPoly]
  split
  · rw [BitVec.xor_assoc, BitVec.xor_assoc, BitVec.xor_comm (x <<< 1)]
  · rfl

/-- R52: `n` rounds on a register with data added feed the data's `n` leading bits into the serial register. -/
theorem crcRound_iterate_xor_eq_foldl_serialStep (r x : Word16) (n : Nat) (hn : n ≤ 16) :
    crcRound^[n] (r ^^^ x) =
      ((List.range n).map fun j => x.getLsbD (15 - j)).foldl serialStep r ^^^ (x <<< n) := by
  induction n with
  | zero => simp
  | succ n ih =>
    have hlead : (x <<< n).getLsbD 15 = x.getLsbD (15 - n) := by
      rw [BitVec.getLsbD_shiftLeft, decide_eq_false (show ¬15 < n by omega)]
      rfl
    rw [Function.iterate_succ_apply', ih (by omega), crcRound_xor_eq_serialStep, hlead, BitVec.shiftLeft_add,
      List.range_succ, List.map_append, List.foldl_append]
    rfl

/-- R52, R100: taking in a byte is feeding its bits, most significant first. -/
theorem crcByte_eq_foldl_serialStep (r : Word16) (b : Byte) : crcByte r b = (bitsMsbFirst b).foldl serialStep r := by
  have hbits : bitsMsbFirst b = (List.range 8).map fun j => (b.setWidth 16 <<< 8 : Word16).getLsbD (15 - j) := by
    refine List.map_congr_left fun j hj => ?_
    have hj8 : j < 8 := List.mem_range.mp hj
    simp [show ¬15 - j < 8 by omega, show 15 - j - 8 = 7 - j by omega, show 15 - j < 16 by omega]
  have hout : (b.setWidth 16 <<< 8 : Word16) <<< 8 = 0 := by
    rw [← BitVec.shiftLeft_add]
    exact BitVec.shiftLeft_eq_zero (by decide)
  rw [crcByte, crcRound_iterate_xor_eq_foldl_serialStep r _ 8 (by decide), ← hbits, hout]
  exact BitVec.xor_zero

/-- R52, R100: the engine, from any start value, is the serial register fed with all the bits in order. -/
theorem crcFrom_eq_foldl_serialStep (r : Word16) (d : List Byte) :
    crcFrom r d = (d.flatMap bitsMsbFirst).foldl serialStep r := by
  induction d generalizing r with
  | nil => rfl
  | cons b d ih => rw [crcFrom_cons, ih, crcByte_eq_foldl_serialStep, List.flatMap_cons, List.foldl_append]

/-- R104 law 1: the checksum of a sequence with errors added. -/
theorem crc16_zipWith_xor {x e : List Byte} (h : x.length = e.length) :
    crc16 (List.zipWith (· ^^^ ·) x e) = crc16 x ^^^ crc0 e := by
  have hstart : crcSeed ^^^ 0 = crcSeed := BitVec.xor_zero
  rw [crc16, crc16, crc0, ← crcFrom_xor _ _ _ _ h, hstart]

/-- R100: what follows a byte goes on from the register that has taken the byte in. -/
theorem crc16_append_cons (l r : List Byte) (b : Byte) :
    crc16 (l ++ b :: r) = crcFrom (crcByte (crc16 l) b) r := by
  rw [crc16, crcFrom_append, crcFrom_cons, ← crc16]

/-- R104 law 2: another byte at one place gives another checksum. -/
theorem crc16_ne_of_byte_ne (l r : List Byte) {b c : Byte} (h : b ≠ c) :
    crc16 (l ++ b :: r) ≠ crc16 (l ++ c :: r) := by
  rw [crc16_append_cons, crc16_append_cons]
  exact fun heq => h (crcByte_data_injective _ (crcFrom_injective r heq))

/-- R104 law 2: another pair of adjacent bytes at one place gives another checksum. -/
theorem crc16_ne_of_pair_ne (l r : List Byte) {b b' c c' : Byte} (h : (b, b') ≠ (c, c')) :
    crc16 (l ++ b :: b' :: r) ≠ crc16 (l ++ c :: c' :: r) := by
  rw [crc16_append_cons, crc16_append_cons, crcFrom_cons, crcFrom_cons]
  intro heq
  obtain ⟨rfl, rfl⟩ := crcByte_pair_injective _ _ _ _ _ (crcFrom_injective r heq)
  exact h rfl

end Sys2Proof.Machine

section

open Sys2Proof Sys2Proof.Machine Sys2Proof.Rule

/-- Settles O13: each of a byte's eight rounds is a serial step on the byte's next bit. -/
theorem checksumIsBitSerial : Obligations.ChecksumIsBitSerial := by
  unfold Obligations.ChecksumIsBitSerial
  exact crcFrom_eq_foldl_serialStep crcSeed

/-- Settles O14: the engine is linear in its register and its data together, and the seed has the difference 0. -/
theorem checksumAffine : Obligations.ChecksumAffine := by
  unfold Obligations.ChecksumAffine
  exact fun _ _ h => crc16_zipWith_xor h

/-- Settles O15: the engine loses nothing of the register, of a byte taken in, or of two. -/
theorem localErrorsChangeChecksum : Obligations.LocalErrorsChangeChecksum := by
  unfold Obligations.LocalErrorsChangeChecksum
  exact ⟨fun l r _ _ h => crc16_ne_of_byte_ne l r h, fun l r _ _ _ _ h => crc16_ne_of_pair_ne l r h⟩

end

end

section
/-! SUPPORT. De-obfuscation after obfuscation, under one key and under two, and the command SET_KEY
(spec/41_obfuscator.md R122, R130); with them O19, O20 and O21. -/

namespace Sys2Proof.Machine

variable (d : List Byte) (k k' : Key)

/-- R122 law 3: byte `i` is left off by the key difference. -/
theorem getElem_deobf_obf (i : Nat) (h : i < (deobf (obf d k) k').length) :
    (deobf (obf d k) k')[i] = d[i]'(by simpa using h) ^^^ keyByte k i ^^^ keyByte k' i := by
  rw [getElem_deobf, getElem_obf, rotr8_rotl8]

/-- R122 law 2. -/
@[simp] theorem deobf_obf : deobf (obf d k) k = d := by
  refine List.ext_getElem (by simp) fun i h _ => ?_
  rw [getElem_deobf_obf, BitVec.xor_assoc, BitVec.xor_self, BitVec.xor_zero]

/-- R122 law 2. -/
@[simp] theorem obf_deobf : obf (deobf d k) k = d := by
  refine List.ext_getElem (by simp) fun i h _ => ?_
  rw [getElem_obf, getElem_deobf, BitVec.xor_assoc, BitVec.xor_self, BitVec.xor_zero, rotl8_rotr8]

/-- R130: SET_KEY is one OK response over the state with the operand as KEY. -/
theorem exec_setKey (s : State) : exec (.setKey k) s = .next (respond .ok [] { s with key := k }) := rfl

end Sys2Proof.Machine

section

open Sys2Proof Sys2Proof.Machine

/-- Settles O19: byte by byte, the rotations undo each other and the key byte cancels. -/
theorem obfuscationInverts : Obligations.ObfuscationInverts := by
  unfold Obligations.ObfuscationInverts
  exact fun d k => ⟨deobf_obf d k, obf_deobf d k⟩

/-- Settles O20: the rotations undo each other and both key bytes stay. -/
theorem wrongKeyLeavesDifference : Obligations.WrongKeyLeavesDifference := by
  unfold Obligations.WrongKeyLeavesDifference
  intro d k1 k2
  have hlen : (deobf (obf d k1) k2).length = d.length := by rw [length_deobf, length_obf]
  refine ⟨hlen, fun i h => ?_⟩
  rw [List.getElem?_eq_getElem (hlen.symm ▸ h), getElem_deobf_obf, keyByte, keyByte]

/-- Settles O21: the one response is the status code of OK. -/
theorem setKeyCommand : Obligations.SetKeyCommand := by
  unfold Obligations.SetKeyCommand
  intro k s
  rw [exec_setKey, respond, Status.code]

end

end

section
/-! SUPPORT. The commands VALIDATE, FRAME_WRITE and FRAME_READ as one update of the state each, what a prepared frame
holds and what validation finds in it, and a frame with one payload byte changed (spec/42_codec.md R140, R149 to R161;
spec/40_checksum.md R104; spec/90_conflicts.md C3); with them O24 to O29. -/

namespace Sys2Proof.Machine

section

variable (s : State) (f : Frame)

/-- R150: VALIDATE stores the validated frame and gives the rule's answer. -/
theorem exec_validate :
    exec .validate s =
      .next { s with
        frameBuf := (checks s s.frameBuf).2
        responses := s.responses ++ [Rule.validationAnswer (checks s s.frameBuf).1 (checks s s.frameBuf).2] } := by
  rw [exec, execValidate, respondFrame_eq_validationAnswer]

/-- R160: FRAME_WRITE is one OK response over the state with the operand in FRAME_BUF. -/
theorem exec_frameWrite : exec (.frameWrite f) s = .next (respond .ok [] { s with frameBuf := f }) := by
  rw [exec, execFrameWrite, memWrite_toList]

/-- R161: FRAME_READ is one OK response, which carries FRAME_BUF. -/
theorem exec_frameRead : exec .frameRead s = .next (respond .ok s.frameBuf.toList s) := by
  rw [exec, execFrameRead, memRead_whole]

end

section

variable {s : State} {f : Frame}

/-- R149: behind a good start byte validation de-obfuscates the payload, whatever the checksum says. -/
theorem checks_snd_of_sentinel (h : frameStart f = sentinel) : (checks s f).2 = deobfFrame f s.key := by
  rw [checks_of_sentinel s h]
  split_ifs <;> rfl

/-- R153: behind a good start byte a checksum that differs is the status. -/
theorem checks_of_checksum_ne (hstart : frameStart f = sentinel)
    (h : frameCrc (deobfFrame f s.key) ≠ frameChecksum f) : checks s f = (.invalidChecksum, deobfFrame f s.key) := by
  rw [checks_of_sentinel s hstart, if_pos h]

/-- R152, R153: a frame with its sentinel and its checksum, for a target the node accepts, is OK. -/
theorem checks_of_checksum_eq (hstart : frameStart f = sentinel)
    (h : frameCrc (deobfFrame f s.key) = frameChecksum f)
    (htarget : s.ctrl.getLsbD 0 = true → frameTarget f = s.localId ∨ frameTarget f = 0xFF) :
    checks s f = (.ok, deobfFrame f s.key) := by
  have hpass : ¬(filterEn s && !accept s (frameTarget f)) = true := fun hx =>
    have ⟨hen, hno⟩ := (filter_rejects_iff s _).mp hx
    hno (htarget hen)
  rw [checks_of_sentinel s hstart, if_neg (not_not.mpr h), if_neg hpass]

/-- R153: only a frame with its sentinel and its checksum is OK or MISADDRESSED. -/
theorem checksum_eq_of_checks (h : (checks s f).1 = .ok ∨ (checks s f).1 = .misaddressed) :
    frameStart f = sentinel ∧ frameCrc (deobfFrame f s.key) = frameChecksum f := by
  by_cases hstart : frameStart f = sentinel
  · refine ⟨hstart, by_contra fun hne => ?_⟩
    rw [checks_of_checksum_ne hstart hne] at h
    simp at h
  · rw [checks_of_ne_sentinel s hstart] at h
    simp at h

end

section

/-! The frame that PREPARE leaves. -/

variable (src tgt ty : Byte) {p : List Byte} (hp : p.length ≤ payloadCap) (b : Frame) (k k' : Key)

/-- R140: the frame PREPARE makes of a payload under a key, in the place of another frame. -/
def preparedFrame (src tgt ty : Byte) (p : List Byte) (k : Key) (b : Frame) : Frame :=
  memWrite b 0 (wireForm (plainFrame src tgt ty p) k)

include hp

/-- R124, R140: a prepared frame's header is the plaintext's. -/
theorem getElem_preparedFrame_header (i : Nat) (hi : i < 5) :
    (preparedFrame src tgt ty p k b)[i] =
      (plainFrame src tgt ty p)[i]'(by rw [length_plainFrame _ _ _ _ hp]; exact hi.trans (by decide)) := by
  have hplain := length_plainFrame src tgt ty p hp
  rw [preparedFrame, getElem_memWrite_whole b _ (length_wireForm _ k hplain),
    getElem_wireForm_header k hplain i hi]

theorem frameStart_preparedFrame : frameStart (preparedFrame src tgt ty p k b) = sentinel :=
  getElem_preparedFrame_header src tgt ty hp b k 0 (by decide)

theorem frameTarget_preparedFrame : frameTarget (preparedFrame src tgt ty p k b) = tgt :=
  getElem_preparedFrame_header src tgt ty hp b k 2 (by decide)

/-- R140: a prepared frame carries the checksum of its plaintext. -/
theorem frameChecksum_preparedFrame :
    frameChecksum (preparedFrame src tgt ty p k b) = crc16 (plainFrame src tgt ty p) := by
  have hplain := length_plainFrame src tgt ty p hp
  have hbyte (j : Nat) (hj : j < 2) := (getElem_memWrite_whole b _ (length_wireForm _ k hplain) (69 + j)
    (show _ < 71 by omega)).trans (getElem_wireForm_checksum k hplain j hj)
  exact (congrArg₂ fromLe16 (hbyte 0 (by decide)) (hbyte 1 (by decide))).trans (fromLe16_extract _)

/-- R155: a prepared frame validated under a key is its header, its payload off by the key difference, and the checksum
of its plaintext. -/
theorem toList_deobfFrame_preparedFrame :
    (deobfFrame (preparedFrame src tgt ty p k b) k').toList =
      (plainFrame src tgt ty p).take 5 ++ deobf (obf ((plainFrame src tgt ty p).drop 5) k) k' ++
        le16 (crc16 (plainFrame src tgt ty p)) :=
  toList_deobfFrame_wireForm b _ k k' (length_plainFrame src tgt ty p hp)

/-- R103, R155: what validation takes the checksum of in a prepared frame. -/
theorem frameCrc_deobfFrame_preparedFrame :
    frameCrc (deobfFrame (preparedFrame src tgt ty p k b) k') =
      crc16 ((plainFrame src tgt ty p).take 5 ++ deobf (obf ((plainFrame src tgt ty p).drop 5) k) k') := by
  have hplain : (plainFrame src tgt ty p).length = 69 := length_plainFrame src tgt ty p hp
  rw [frameCrc, memRead_prefix, toList_deobfFrame_preparedFrame src tgt ty hp]
  exact congrArg crc16 (List.take_left' (by simp [hplain]))

/-- R155: validated under its own key, a prepared frame is its plaintext and checksum. -/
theorem toList_deobfFrame_preparedFrame_self :
    (deobfFrame (preparedFrame src tgt ty p k b) k).toList =
      plainFrame src tgt ty p ++ le16 (crc16 (plainFrame src tgt ty p)) := by
  rw [toList_deobfFrame_preparedFrame src tgt ty hp, deobf_obf, List.take_append_drop]

/-- R155: validated under its own key, a prepared frame has its checksum. -/
theorem frameCrc_deobfFrame_preparedFrame_self :
    frameCrc (deobfFrame (preparedFrame src tgt ty p k b) k) = crc16 (plainFrame src tgt ty p) := by
  rw [frameCrc_deobfFrame_preparedFrame src tgt ty hp, deobf_obf, List.take_append_drop]

end

/-- R140: where PREPARE accepts the payload, FRAME_BUF becomes the prepared frame. -/
theorem frameBuf_of_exec_prepare {src tgt ty : Byte} {p : List Byte} {s t : State} (hp : p.length ≤ payloadCap)
    (h : exec (.prepare src tgt ty p) s = .next t) :
    t.frameBuf = preparedFrame src tgt ty p s.key s.frameBuf ∧ t.key = s.key := by
  rw [exec_prepare_ok src tgt ty s hp] at h
  obtain rfl := Host.Outcome.next.inj h
  exact ⟨by rw [respond_frameBuf, preparedFrame], respond_key _ _ _⟩

section

/-! A payload under the wrong key (C3). -/

variable (k k' : Key)

/-- C3: the key difference repeated over the payload. -/
def keyDifference (k k' : Key) : List Byte := (List.range 64).map fun i => keyByte k i ^^^ keyByte k' i

@[simp] theorem length_keyDifference : (keyDifference k k').length = 64 := by
  rw [keyDifference, List.length_map, List.length_range]

/-- R122 law 3: de-obfuscating a payload under another key adds the key difference to it. -/
theorem deobf_obf_eq_zipWith {d : List Byte} (hd : d.length = 64) :
    deobf (obf d k) k' = List.zipWith (· ^^^ ·) d (keyDifference k k') := by
  refine List.ext_getElem (by simp [hd]) fun i h h' => ?_
  rw [getElem_deobf_obf, List.getElem_zipWith]
  simp only [keyDifference, List.getElem_map, List.getElem_range, BitVec.xor_assoc]

/-- R104: leading zero bytes leave a checksum started from 0 as it is. -/
theorem crc0_zeros_append (n : Nat) (e : List Byte) : crc0 (List.replicate n 0 ++ e) = crc0 e := by
  rw [crc0, crcFrom_append, crcFrom_zeros, ← crc0]

/-- Adding zero bytes changes nothing. -/
theorem zipWith_xor_zeros (d : List Byte) : List.zipWith (· ^^^ ·) d (List.replicate d.length 0) = d := by
  induction d with
  | nil => rfl
  | cons b d ih => rw [List.length_cons, List.replicate_succ, List.zipWith_cons_cons, ih]; simp

/-- C3, R104 law 1: the checksum of a plaintext whose payload is off by the key difference. -/
theorem crc16_take_append_deobf_obf {plain : List Byte} (h : plain.length = 69) :
    crc16 (plain.take 5 ++ deobf (obf (plain.drop 5) k) k') = crc16 plain ^^^ crc0 (keyDifference k k') := by
  have htake : (plain.take 5).length = 5 := by rw [List.length_take, h]; rfl
  have hdrop : (plain.drop 5).length = 64 := by rw [List.length_drop, h]
  have hheader : List.zipWith (· ^^^ ·) (plain.take 5) (List.replicate 5 0) = plain.take 5 := by
    have h0 := zipWith_xor_zeros (plain.take 5)
    rwa [htake] at h0
  have hsum : plain.take 5 ++ deobf (obf (plain.drop 5) k) k' =
      List.zipWith (· ^^^ ·) plain (List.replicate 5 0 ++ keyDifference k k') :=
    calc plain.take 5 ++ deobf (obf (plain.drop 5) k) k'
        = List.zipWith (· ^^^ ·) (plain.take 5) (List.replicate 5 0) ++
            List.zipWith (· ^^^ ·) (plain.drop 5) (keyDifference k k') := by
          rw [deobf_obf_eq_zipWith k k' hdrop, hheader]
      _ = List.zipWith (· ^^^ ·) (plain.take 5 ++ plain.drop 5) (List.replicate 5 0 ++ keyDifference k k') :=
          (List.zipWith_append (by rw [htake, List.length_replicate])).symm
      _ = _ := by rw [List.take_append_drop]
  rw [hsum, crc16_zipWith_xor (by simp [h]), crc0_zeros_append]

end

section

/-! A frame with one payload byte changed (R104 law 3). -/

variable {f : Frame} {i : Nat} (h : i < 71) (b : Byte)

/-- R104 law 2: another byte anywhere in a sequence gives another checksum. -/
theorem crc16_set_ne {d : List Byte} (hi : i < d.length) (hb : b ≠ d[i]) : crc16 (d.set i b) ≠ crc16 d := by
  have hd : d = d.take i ++ d[i] :: d.drop (i + 1) := by rw [List.getElem_cons_drop, List.take_append_drop]
  rw [List.set_eq_take_append_cons_drop, if_pos hi]
  conv_rhs => rw [hd]
  exact crc16_ne_of_byte_ne _ _ hb

/-- R103: another byte at a covered offset gives another checksum. -/
theorem frameCrc_set_ne (hi : i < 69) (hb : b ≠ f[i]) : frameCrc (f.set i b h) ≠ frameCrc f := by
  rw [frameCrc, frameCrc, memRead_prefix, memRead_prefix, Vector.toList_set, List.take_set]
  exact crc16_set_ne b (by simp [hi]) (by simpa using hb)

/-- R121: de-obfuscation takes different bytes at an offset to different bytes. -/
theorem deobf_byte_injective (k : Key) (j : Nat) : Function.Injective fun c : Byte => rotr8 c rot ^^^ keyByte k j := by
  intro c c' hc
  have hrot := congrArg (rotl8 · rot) ((BitVec.xor_left_inj _).mp hc)
  simpa using hrot

variable (hlo : 5 ≤ i) (hhi : i ≤ 68)
include hlo hhi

/-- R149: a changed payload byte changes that byte of the validated frame and no other. -/
theorem deobfFrame_set (k : Key) :
    deobfFrame (f.set i b h) k = (deobfFrame f k).set i (rotr8 b rot ^^^ keyByte k (i - 5)) h := by
  apply Vector.ext
  intro j hj
  by_cases hout : j < 5 ∨ 69 ≤ j
  · rw [getElem_deobfFrame_outside _ _ j hj hout, Vector.getElem_set_ne _ _ (by omega),
      Vector.getElem_set_ne _ _ (by omega), getElem_deobfFrame_outside _ _ j hj hout]
  · obtain ⟨m, rfl⟩ := Nat.exists_eq_add_of_le (show 5 ≤ j by omega)
    obtain ⟨n, rfl⟩ := Nat.exists_eq_add_of_le hlo
    rw [getElem_deobfFrame_inside _ _ m (by omega), Vector.getElem_set, Vector.getElem_set,
      getElem_deobfFrame_inside _ _ m (by omega)]
    split
    · rw [show m = n by omega, Nat.add_sub_cancel_left]
    · rfl

/-- R104 law 3: a changed payload byte changes the checksum validation computes. -/
theorem frameCrc_deobfFrame_set_ne (k : Key) (hb : b ≠ f[i]) :
    frameCrc (deobfFrame (f.set i b h) k) ≠ frameCrc (deobfFrame f k) := by
  rw [deobfFrame_set h b hlo hhi]
  refine frameCrc_set_ne h _ (by omega) fun heq => hb (deobf_byte_injective k (i - 5) (heq.trans ?_))
  obtain ⟨n, rfl⟩ := Nat.exists_eq_add_of_le hlo
  rw [getElem_deobfFrame_inside _ _ n (by omega), Nat.add_sub_cancel_left]

end

end Sys2Proof.Machine

section

open Sys2Proof Sys2Proof.Machine Sys2Proof.Rule

/-- Settles O24: the response of a validation is the rule's answer. -/
theorem validateCommand : Obligations.ValidateCommand := by
  unfold Obligations.ValidateCommand
  exact exec_validate

/-- Settles O25: a write of 71 bytes leaves nothing of the old buffer, and a read of 71 bytes is the whole buffer. -/
theorem frameBufferAccess : Obligations.FrameBufferAccess := by
  unfold Obligations.FrameBufferAccess
  exact fun f s => ⟨exec_frameWrite s f, exec_frameRead s⟩

/-- Settles O26: under its own key a prepared frame de-obfuscates to its plaintext, whose checksum is the one it
carries. -/
theorem prepareThenValidate : Obligations.PrepareThenValidate := by
  unfold Obligations.PrepareThenValidate
  intro src tgt ty p s t u hp hexec hbuf hkey htarget
  obtain ⟨hprep, hkeep⟩ := frameBuf_of_exec_prepare hp hexec
  rw [hprep] at hbuf
  have hok : checks u u.frameBuf = (.ok, deobfFrame u.frameBuf u.key) := by
    refine checks_of_checksum_eq ?_ ?_ ?_ <;> rw [hbuf]
    · exact frameStart_preparedFrame src tgt ty hp _ _
    · rw [hkey, hkeep, frameCrc_deobfFrame_preparedFrame_self src tgt ty hp, frameChecksum_preparedFrame src tgt ty hp]
    · rwa [frameTarget_preparedFrame src tgt ty hp]
  refine ⟨deobfFrame u.frameBuf u.key, ?_, by rw [exec_validate, hok]; rfl⟩
  rw [hbuf, hkey, hkeep, toList_deobfFrame_preparedFrame_self src tgt ty hp, plainFrame_eq_plaintext69, le16]

/-- Settles O27: the changed byte changes the recomputed checksum and not the one the frame carries. -/
theorem corruptPayloadByteDetected : Obligations.CorruptPayloadByteDetected := by
  unfold Obligations.CorruptPayloadByteDetected
  intro s f i h b hbuf hlo hhi hb hgood
  obtain ⟨hstart, hcrc⟩ := checksum_eq_of_checks hgood
  have hstart' : frameStart s.frameBuf = sentinel := by
    rw [hbuf, frameStart, Vector.getElem_set_ne _ _ (by omega)]
    exact hstart
  have hcarried : frameChecksum s.frameBuf = frameChecksum f := by
    rw [hbuf, frameChecksum, Vector.getElem_set_ne _ _ (by omega), Vector.getElem_set_ne _ _ (by omega), frameChecksum]
  have hbad : frameCrc (deobfFrame s.frameBuf s.key) ≠ frameChecksum s.frameBuf := by
    rw [hcarried, ← hcrc, hbuf]
    exact frameCrc_deobfFrame_set_ne h b hlo hhi s.key hb
  exact ⟨deobfFrame s.frameBuf s.key, by rw [exec_validate, checks_of_checksum_ne hstart' hbad]; rfl⟩

/-- Settles O28: the recomputed checksum is the carried one with the key difference's checksum from 0 added. -/
theorem keyMismatchDetectedExactly : Obligations.KeyMismatchDetectedExactly := by
  unfold Obligations.KeyMismatchDetectedExactly
  intro src tgt ty p s t u hp hexec hbuf hoff
  obtain ⟨hprep, -⟩ := frameBuf_of_exec_prepare hp hexec
  rw [hprep] at hbuf
  have hstart : frameStart u.frameBuf = sentinel := hbuf ▸ frameStart_preparedFrame src tgt ty hp _ _
  have hcrc : frameCrc (deobfFrame u.frameBuf u.key) =
      frameChecksum u.frameBuf ^^^ crc0 (keyDifference s.key u.key) := by
    rw [hbuf, frameCrc_deobfFrame_preparedFrame src tgt ty hp, frameChecksum_preparedFrame src tgt ty hp,
      crc16_take_append_deobf_obf _ _ (length_plainFrame src tgt ty p hp)]
  change _ = if crc0 (keyDifference s.key u.key) = 0 then _ else _
  split
  · rename_i hz
    have hgood : frameCrc (deobfFrame u.frameBuf u.key) = frameChecksum u.frameBuf := by simpa [hz] using hcrc
    rw [checks_of_checksum_eq hstart hgood fun hon => absurd (hoff.symm.trans hon) Bool.false_ne_true]
  · rename_i hnz
    have hbad : frameCrc (deobfFrame u.frameBuf u.key) ≠ frameChecksum u.frameBuf := fun heq =>
      hnz ((BitVec.xor_right_inj _).mp ((hcrc.symm.trans heq).trans BitVec.xor_zero.symm))
    rw [checks_of_checksum_ne hstart hbad]

/-- Settles O29: each validation de-obfuscates the payload under KEY, and the first leaves the start byte. -/
theorem secondValidateDeobfuscatesAgain : Obligations.SecondValidateDeobfuscatesAgain := by
  unfold Obligations.SecondValidateDeobfuscatesAgain
  intro s hstart
  have hfirst : (checks s s.frameBuf).2 = deobfFrame s.frameBuf s.key := checks_snd_of_sentinel hstart
  have hstart' : frameStart (deobfFrame s.frameBuf s.key) = sentinel :=
    (getElem_deobfFrame_outside _ _ 0 _ (.inl (by decide))).trans hstart
  rw [runCommands, exec_validate]
  simp only [runCommands, exec_validate, hfirst, checks_snd_of_sentinel hstart']
  refine ⟨_, rfl, fun i h => ?_⟩
  simp only [getElem_deobfFrame_inside _ _ i h, rotr8_rot, keyByte]

end

end

section
/-! SUPPORT. What each command may write, said once: a command is one response over a state in which only the elements
of its row have changed (spec/10_state.md R20 to R33; spec/70_reset_and_hazards.md R268); with it O42. -/

namespace Sys2Proof.Machine

/-- R20, R22, R28, R29, R57, R180: the writes a command may make, beside its response. -/
inductive Writes : Instr → State → State → Prop where
  /-- Every command may leave the state as it is. -/
  | nothing (i : Instr) (s : State) : Writes i s s
  | feed (b : Byte) (s : State) (st : AsmState) (c : BitVec 7) (f : Frame) :
      Writes (.feed b) s { s with asmState := st, asmCount := c, asmBuf := f }
  | asmReset (s : State) : Writes .asmReset s { s with asmState := .waitStart, asmCount := 0, asmBuf := zeroFrame }
  | prepare (src tgt ty : Byte) (p : List Byte) (s : State) (f : Frame) :
      Writes (.prepare src tgt ty p) s { s with frameBuf := f }
  | validate (s : State) (f : Frame) : Writes .validate s { s with frameBuf := f }
  | frameWrite (s : State) (f : Frame) : Writes (.frameWrite f) s { s with frameBuf := f }
  | setKey (s : State) (k : Key) : Writes (.setKey k) s { s with key := k }
  | ctrl (s : State) (v : Byte) : Writes (.regWrite 0x02 v) s { s with ctrl := v &&& 0x01 }
  | localId (s : State) (v : Byte) : Writes (.regWrite 0x03 v) s { s with localId := v }
  | defaultTarget (s : State) (v : Byte) : Writes (.regWrite 0x04 v) s { s with defaultTarget := v }

/-- R170: a FEED is one response over a state in which only the assembler has changed. -/
theorem execFeed_writes (b : Byte) (s : State) : ∃ st data u,
    execFeed b s = .next (respond st data u) ∧ Writes (.feed b) s u := by
  simp only [execFeed, startAssembly, appendByte, completeFrame, storeByte, respondFrame_eq]
  split
  · split
    · exact ⟨_, _, _, rfl, .feed b s _ _ _⟩
    · exact ⟨_, _, _, rfl, .nothing _ s⟩
  · exact ⟨_, _, _, rfl, .feed b s _ _ _⟩
  · exact ⟨_, _, _, rfl, .feed b s _ _ _⟩
  · split
    · exact ⟨_, _, _, rfl, .feed b s _ _ _⟩
    · exact ⟨_, _, _, rfl, .feed b s _ _ _⟩

/-- R201: a REG_WRITE is one response over a state in which at most the addressed register has changed. -/
theorem execRegWrite_writes (a v : Byte) (s : State) : ∃ st data u,
    execRegWrite a v s = .next (respond st data u) ∧ Writes (.regWrite a v) s u := by
  rw [execRegWrite]
  cases h : writeReg s a v with
  | none => exact ⟨_, _, _, rfl, .nothing _ s⟩
  | some t =>
    rcases writeReg_cases s a v t h with ⟨rfl, rfl⟩ | ⟨rfl, rfl⟩ | ⟨rfl, rfl⟩
    · exact ⟨_, _, _, rfl, .ctrl s v⟩
    · exact ⟨_, _, _, rfl, .localId s v⟩
    · exact ⟨_, _, _, rfl, .defaultTarget s v⟩

/-- R80, R268: a command is one response over a state in which only what it may write has changed. -/
theorem exec_writes (i : Instr) (s : State) : ∃ st data u,
    exec i s = .next (respond st data u) ∧ Writes i s u := by
  cases i with
  | feed b => exact execFeed_writes b s
  | asmReset => exact ⟨_, _, _, exec_asmReset s, .asmReset s⟩
  | prepare src tgt ty p =>
    rcases Nat.lt_or_ge payloadCap p.length with h | h
    · exact ⟨_, _, _, exec_prepare_oversize src tgt ty s h, .nothing _ s⟩
    · exact ⟨_, _, _, exec_prepare_ok src tgt ty s h, .prepare src tgt ty p s _⟩
  | validate =>
    rw [exec, execValidate, respondFrame_eq]
    exact ⟨_, _, _, rfl, .validate s _⟩
  | frameWrite f => exact ⟨_, _, _, exec_frameWrite s f, .frameWrite s f⟩
  | frameRead => exact ⟨_, _, _, exec_frameRead s, .nothing _ s⟩
  | checksum d => exact ⟨_, _, _, exec_checksum d s, .nothing _ s⟩
  | obfuscate d => exact ⟨_, _, _, exec_obfuscate d s, .nothing _ s⟩
  | deobfuscate d => exact ⟨_, _, _, exec_deobfuscate d s, .nothing _ s⟩
  | setKey k => exact ⟨_, _, _, exec_setKey k s, .setKey s k⟩
  | regRead a =>
    rw [exec, execRegRead]
    split <;> exact ⟨_, _, _, rfl, .nothing _ s⟩
  | regWrite a v => exact execRegWrite_writes a v s

/-- R80, R268: the state a command leaves is one response on top of what it may write. -/
theorem writes_of_exec {i : Instr} {s t : State} (h : exec i s = .next t) :
    ∃ st data u, t = respond st data u ∧ Writes i s u := by
  obtain ⟨st, data, u, he, hw⟩ := exec_writes i s
  exact ⟨st, data, u, Host.Outcome.next.inj (h.symm.trans he), hw⟩

end Sys2Proof.Machine

section

open Sys2Proof Sys2Proof.Machine

/-- Settles O42: one case for each write a command may make, which leaves every element but its own. -/
theorem writersOfEachElement : Obligations.WritersOfEachElement := by
  unfold Obligations.WritersOfEachElement
  intro i s t h
  obtain ⟨st, data, u, rfl, hw⟩ := writes_of_exec h
  cases hw <;> simp

end

end

section
/-! SUPPORT. Sequences of FEED: bytes appended to an assembly, a frame fed from `WaitStart` on, and noise
(spec/43_assembler.md R170 to R181); with them O31, O32, O33 and O35. -/

namespace Sys2Proof.Machine

section

variable {n : Nat} (buf : Vector Byte n) (a : Nat)

@[simp] theorem memWrite_nil : memWrite buf a [] = buf := by
  apply Vector.ext
  intro i hi
  exact getElem_memWrite_outside buf a [] i hi (Nat.lt_or_ge i a)

/-- R11: a write that goes on where the one before ended is one write. -/
theorem memWrite_memWrite_append (v w : List Byte) :
    memWrite (memWrite buf a v) (a + v.length) w = memWrite buf a (v ++ w) := by
  apply Vector.ext
  intro i hi
  rcases Nat.lt_or_ge i (a + v.length) with hv | hv
  · rw [getElem_memWrite_outside _ _ _ _ hi (.inl hv), getElem_memWrite, getElem_memWrite, List.length_append]
    by_cases ha : a ≤ i
    · rw [if_pos ⟨ha, hv⟩, if_pos ⟨ha, by omega⟩, List.getD_append _ _ _ _ (by omega)]
    · rw [if_neg fun h => ha h.1, if_neg fun h => ha h.1]
  · rw [getElem_memWrite, getElem_memWrite_outside _ _ _ _ hi (.inr hv), getElem_memWrite, List.length_append,
      Nat.add_assoc, List.getD_append_right _ _ _ _ (by omega), Nat.sub_add_eq]
    simp only [show a ≤ i by omega, hv, true_and]

end

/-- R26: the assembler state that goes with a count. -/
def asmStateOf (c : Nat) : AsmState :=
  if c = 0 then .waitStart else if c ≤ 4 then .readHeader else if c ≤ 68 then .readPayload else .readCrc

theorem asmStateOf_header {c : Nat} (hlo : 1 ≤ c) (hhi : c ≤ 4) : asmStateOf c = .readHeader := by
  rw [asmStateOf, if_neg (by omega), if_pos hhi]

theorem asmStateOf_payload {c : Nat} (hlo : 5 ≤ c) (hhi : c ≤ 68) : asmStateOf c = .readPayload := by
  rw [asmStateOf, if_neg (by omega), if_neg (by omega), if_pos hhi]

theorem asmStateOf_crc {c : Nat} (h : 69 ≤ c) : asmStateOf c = .readCrc := by
  rw [asmStateOf, if_neg (by omega), if_neg (by omega), if_neg (by omega)]

/-- R26: the state is a function of the count, and the count stays below the frame size. -/
theorem eq_asmStateOf_of_countFits {a : AsmState} {c : Nat} (h : countFits a c = true) :
    c ≤ 70 ∧ a = asmStateOf c := by
  cases a with
  | waitStart =>
    obtain rfl : c = 0 := of_decide_eq_true h
    exact ⟨by decide, rfl⟩
  | readHeader =>
    obtain ⟨hlo, hhi⟩ : 1 ≤ c ∧ c ≤ 4 := of_decide_eq_true h
    exact ⟨by omega, (asmStateOf_header hlo hhi).symm⟩
  | readPayload =>
    obtain ⟨hlo, hhi⟩ : 5 ≤ c ∧ c ≤ 68 := of_decide_eq_true h
    exact ⟨by omega, (asmStateOf_payload hlo hhi).symm⟩
  | readCrc =>
    obtain ⟨hlo, hhi⟩ : 69 ≤ c ∧ c ≤ 70 := of_decide_eq_true h
    exact ⟨hhi, (asmStateOf_crc hlo).symm⟩

/-- R26: every count below the frame size fits its state. -/
theorem countFits_asmStateOf {c : Nat} (h : c ≤ 70) : countFits (asmStateOf c) c = true := by
  unfold asmStateOf
  split_ifs <;> exact decide_eq_true (by omega)

/-- R26: outside `WaitStart` the count is at least 1. -/
theorem asmStateOf_ne_waitStart_iff (c : Nat) : asmStateOf c ≠ .waitStart ↔ 1 ≤ c := by
  unfold asmStateOf
  split_ifs <;> simp <;> omega

/-- R170: the state after bytes that an assembly stores without completing the frame. -/
def State.fed (s : State) (bs : List Byte) : State :=
  { s with
    asmBuf := memWrite s.asmBuf s.asmCount.toNat bs
    asmCount := BitVec.ofNat 7 (s.asmCount.toNat + bs.length)
    asmState := asmStateOf (s.asmCount.toNat + bs.length)
    responses := s.responses ++ List.replicate bs.length [0x01] }

variable {s : State}

@[simp] theorem fed_asmBuf (bs : List Byte) : (s.fed bs).asmBuf = memWrite s.asmBuf s.asmCount.toNat bs := by
  simp only [State.fed]

/-- R25: the count after bytes that stay within the frame. -/
theorem toNat_fed_asmCount {bs : List Byte} (h : s.asmCount.toNat + bs.length ≤ 70) :
    (s.fed bs).asmCount.toNat = s.asmCount.toNat + bs.length := by
  rw [State.fed, BitVec.toNat_ofNat, Nat.mod_eq_of_lt (by omega)]

/-- R25: the count after one byte that does not complete the frame. -/
theorem toNat_fed_singleton_asmCount (b : Byte) (h : s.asmCount.toNat ≤ 69) :
    (s.fed [b]).asmCount.toNat = s.asmCount.toNat + 1 :=
  toNat_fed_asmCount (bs := [b]) (Nat.succ_le_succ h)

theorem fed_nil (hst : s.asmState = asmStateOf s.asmCount.toNat) : s.fed [] = s := by
  simp [State.fed, ← hst]

/-- R170: bytes stored one after the other are stored in order. -/
theorem fed_fed {v : List Byte} (w : List Byte) (h : s.asmCount.toNat + v.length ≤ 70) :
    (s.fed v).fed w = s.fed (v ++ w) := by
  have hcount := toNat_fed_asmCount h
  rw [State.fed, hcount]
  simp only [State.fed, memWrite_memWrite_append, List.length_append, Nat.add_assoc, List.append_assoc,
    List.replicate_append_replicate]

/-- R170: an append whose state is the one of its count is a stored byte, answered INCOMPLETE. -/
theorem respond_appendByte (b : Byte) {limit : Nat} {next : AsmState}
    (h : (if nextCount s = limit then next else s.asmState) = asmStateOf (nextCount s)) :
    respond .incomplete [] (appendByte b limit next s) = s.fed [b] := by
  simp only [respond, appendByte, storeByte, h]
  rfl

/-- R170: in an assembly with more than one byte to come, FEED stores its byte. -/
theorem exec_feed_of_lt (b : Byte) (hst : s.asmState = asmStateOf s.asmCount.toNat) (hlo : 1 ≤ s.asmCount.toNat)
    (hhi : s.asmCount.toNat ≤ 69) : exec (.feed b) s = .next (s.fed [b]) := by
  have hnext : nextCount s = s.asmCount.toNat + 1 := rfl
  rw [exec_feed]
  obtain hc | ⟨hc, hc'⟩ | hc :
      s.asmCount.toNat ≤ 4 ∨ (5 ≤ s.asmCount.toNat ∧ s.asmCount.toNat ≤ 68) ∨ s.asmCount.toNat = 69 := by omega
  · rw [asmStateOf_header hlo hc] at hst
    rw [execFeed_header b s hst, respond_appendByte]
    by_cases hend : nextCount s = 5
    · rw [if_pos hend, hend]; rfl
    · rw [if_neg hend, asmStateOf_header (by omega) (by omega), hst]
  · rw [asmStateOf_payload hc hc'] at hst
    rw [execFeed_payload b s hst, respond_appendByte]
    by_cases hend : nextCount s = 69
    · rw [if_pos hend, hend]; rfl
    · rw [if_neg hend, asmStateOf_payload (by omega) (by omega), hst]
  · rw [asmStateOf_crc (by omega)] at hst
    rw [execFeed_crc b s hst (by rw [hnext, hc]; decide), respond_appendByte]
    rw [asmStateOf_crc (by omega), hst, ite_self]

/-- R170: in an assembly with one byte to come, FEED stores its byte and validates the frame. -/
theorem exec_feed_of_eq (b : Byte) (hst : s.asmState = asmStateOf s.asmCount.toNat) (hc : s.asmCount.toNat = 70) :
    exec (.feed b) s = .next (completeFrame (storeByte b s)) := by
  rw [exec_feed, execFeed_complete b s (by rw [hst, hc]; rfl) (by rw [nextCount, hc]; decide)]

/-- R175: in an assembly, bytes that do not complete the frame are stored one after the other. -/
theorem runCommands_feed (bs : List Byte) (hst : s.asmState = asmStateOf s.asmCount.toNat)
    (hlo : 1 ≤ s.asmCount.toNat) (hhi : s.asmCount.toNat + bs.length ≤ 70) :
    runCommands (bs.map .feed) s = .next (s.fed bs) := by
  induction bs generalizing s with
  | nil => rw [fed_nil hst]; rfl
  | cons b bs ih =>
    rw [List.length_cons] at hhi
    have hone : s.asmCount.toNat ≤ 69 := by omega
    have hcount := toNat_fed_singleton_asmCount b hone
    rw [List.map_cons, runCommands, exec_feed_of_lt b hst hlo hone]
    exact (ih (s := s.fed [b]) (by rw [hcount]; rfl) (by omega) (by omega)).trans
      (congrArg _ (fed_fed (v := [b]) bs (Nat.succ_le_succ hone)))

/-- R170, R172: from `WaitStart`, the sentinel and the bytes after it, short of a whole frame, are an assembly of just
those bytes over a cleared buffer. -/
theorem runCommands_feed_of_waitStart (bs : List Byte) (hst : s.asmState = .waitStart) (hlen : bs.length ≤ 69) :
    runCommands ((sentinel :: bs).map .feed) s =
      .next { s with
        asmBuf := memWrite zeroFrame 0 (sentinel :: bs)
        asmCount := BitVec.ofNat 7 (bs.length + 1)
        asmState := asmStateOf (bs.length + 1)
        responses := s.responses ++ List.replicate (bs.length + 1) [0x01] } := by
  have hstart : exec (.feed sentinel) s = .next (respond .incomplete [] (startAssembly s)) := by
    rw [exec_feed, execFeed_start s hst]
  have hrest := runCommands_feed (s := respond .incomplete [] (startAssembly s)) bs rfl (Nat.le_refl 1)
    (show 1 + bs.length ≤ 70 by omega)
  rw [List.map_cons, runCommands, hstart]
  refine hrest.trans (congrArg _ ?_)
  have hbuf : memWrite (memWrite zeroFrame 0 [sentinel]) 1 bs = memWrite zeroFrame 0 (sentinel :: bs) :=
    memWrite_memWrite_append zeroFrame 0 [sentinel] bs
  simp [State.fed, hbuf, Nat.add_comm 1, List.replicate_succ, Status.code]

/-- R70: a frame that starts with the sentinel is the sentinel, 69 bytes and a last byte. -/
theorem exists_toList_eq_of_sentinel {f : Frame} (h : f[0] = sentinel) :
    ∃ (bs : List Byte) (b : Byte), f.toList = sentinel :: bs ++ [b] ∧ bs.length = 69 := by
  have hlen : f.toList.length = 71 := Vector.length_toList
  obtain ⟨a, l, hl⟩ := List.exists_cons_of_length_pos (by omega : 0 < f.toList.length)
  rw [hl, List.length_cons] at hlen
  have hne : l ≠ [] := List.ne_nil_of_length_pos (by omega)
  have ha : a = sentinel := by
    have hfirst : f.toList[0]? = some f[0] := by simp
    simpa [hl, h] using hfirst
  refine ⟨l.dropLast, l.getLast hne, ?_, by rw [List.length_dropLast]; omega⟩
  rw [hl, ha, List.cons_append, List.dropLast_append_getLast hne]

/-- R149: validation reads nothing of the assembler or the port. -/
theorem checks_assembler (s : State) (f g : Frame) (a : AsmState) (c : BitVec 7) (rs : List Packet) :
    checks { s with asmState := a, asmCount := c, asmBuf := g, responses := rs } f = checks s f :=
  checks_congr s _ f rfl rfl rfl

/-- R170, R176: from `WaitStart`, the 71 bytes of a frame are answered INCOMPLETE but for the last, which is answered
with the frame's own validation. -/
theorem runCommands_feed_frame {f : Frame} (hst : s.asmState = .waitStart) (hf : f[0] = sentinel) :
    runCommands (f.toList.map .feed) s =
      .next { s with
        asmBuf := (checks s f).2
        asmCount := 0
        responses := s.responses ++ List.replicate 70 [0x01] ++
          [Rule.validationAnswer (checks s f).1 (checks s f).2] } := by
  obtain ⟨bs, b, hbytes, hlen⟩ := exists_toList_eq_of_sentinel hf
  have hinit := runCommands_feed_of_waitStart bs hst (by omega)
  rw [hbytes, List.map_append, runCommands_append _ _ _ _ hinit, List.map_singleton, runCommands,
    exec_feed_of_eq b (by rw [hlen]; rfl) (by rw [hlen]; rfl), completeFrame_eq]
  have hbuf : memWrite (memWrite zeroFrame 0 (sentinel :: bs)) 70 [b] = f := by
    have happend := memWrite_memWrite_append zeroFrame 0 (sentinel :: bs) [b]
    rw [← hbytes, memWrite_toList, List.length_cons, hlen] at happend
    exact happend
  simp [storeByte, hlen, hbuf, hst, checks_assembler, runCommands]

/-- R176: in `WaitStart` bytes without the sentinel are answered INCOMPLETE and change nothing else. -/
theorem runCommands_feed_noise (bs : List Byte) (hst : s.asmState = .waitStart) (hbs : sentinel ∉ bs) :
    runCommands (bs.map .feed) s =
      .next { s with responses := s.responses ++ List.replicate bs.length [0x01] } := by
  induction bs generalizing s with
  | nil => simp [runCommands]
  | cons b bs ih =>
    obtain ⟨hb, hbs'⟩ := not_or.mp (List.mem_cons.not.mp hbs)
    rw [List.map_cons, runCommands, exec_feed, execFeed_discard b s hst (Ne.symm hb)]
    exact (ih (s := respond .incomplete [] s) hst hbs').trans (by simp [respond, List.replicate_succ, Status.code])

end Sys2Proof.Machine

section

open Sys2Proof Sys2Proof.Machine Sys2Proof.Rule

/-- Settles O31: the first 70 bytes are an assembly of just those bytes, and the last makes it the frame. -/
theorem feedWholeFrame : Obligations.FeedWholeFrame := by
  unfold Obligations.FeedWholeFrame
  exact fun s f hst hf => runCommands_feed_frame hst hf

/-- Settles O32: the bytes are stored as one write at the count, which stays short of the frame size. -/
theorem noResynchronisation : Obligations.NoResynchronisation := by
  unfold Obligations.NoResynchronisation
  intro s bs hinv hst hlen
  obtain ⟨-, hstate⟩ := eq_asmStateOf_of_countFits hinv.count
  have hlo : 1 ≤ s.asmCount.toNat := (asmStateOf_ne_waitStart_iff _).mp (hstate ▸ hst)
  refine ⟨s.fed bs, runCommands_feed bs hstate hlo hlen, ?_, toNat_fed_asmCount hlen, rfl, fun i h => ?_⟩
  · exact (asmStateOf_ne_waitStart_iff _).mpr (by omega)
  · rw [State.fed, getElem_memWrite]
    rcases Nat.lt_or_ge i s.asmCount.toNat with hi | hi
    · rw [if_pos hi, if_neg (by omega)]
    · rw [if_neg (Nat.not_lt.mpr hi)]
      split
      · rw [List.getD_eq_getElem _ _ (by omega), List.getD_eq_getElem _ _ (by omega)]
      · rw [List.getD_eq_default _ _ (by omega)]

/-- Settles O33: each byte is discarded and leaves the assembler in `WaitStart`. -/
theorem noiseWithoutSentinelDiscarded : Obligations.NoiseWithoutSentinelDiscarded := by
  unfold Obligations.NoiseWithoutSentinelDiscarded
  exact fun s bs hst hbs => runCommands_feed_noise bs hst hbs

/-- Settles O35: the partial frame leaves an assembly, ASM_RESET clears it, and the second frame is fed from
`WaitStart`. -/
theorem timeoutRecovery : Obligations.TimeoutRecovery := by
  unfold Obligations.TimeoutRecovery
  intro s part f hst hhead hlen hf
  obtain ⟨bs, rfl⟩ : ∃ bs, part = sentinel :: bs := List.head?_eq_some_iff.mp hhead
  rw [List.length_cons] at hlen
  have hpart := runCommands_feed_of_waitStart bs hst (by omega)
  rw [List.append_assoc, runCommands_append _ _ _ _ hpart, List.singleton_append, runCommands, exec_asmReset]
  dsimp only
  rw [runCommands_feed_frame rfl hf]
  simp [respond, hst, Status.code, checks_assembler]

end

end

section
/-! SUPPORT. FEED in a state that keeps R26, the responses a command gives in a state that meets the invariant, and what
keeps the invariant (spec/10_state.md R26, R27, R32; spec/30_encoding.md R80 to R83); with them O10, O38 and O39. -/

namespace Sys2Proof.Machine

/-- R26, R27: the part of the invariant that speaks of the assembler. -/
structure State.AsmInv (s : State) : Prop where
  /-- R26. -/
  count : countFits s.asmState s.asmCount.toNat = true
  /-- R27. -/
  head : 1 ≤ s.asmCount.toNat → s.asmBuf[0] = sentinel

theorem State.Inv.asm {s : State} (h : s.Inv) : s.AsmInv := ⟨h.count, h.head⟩

/-- The invariant says nothing of the request bytes. -/
theorem State.Inv.withRequests {s : State} (h : s.Inv) (bs : List Byte) : { s with requests := bs }.Inv :=
  ⟨h.count, h.head, h.reserved, h.answers⟩

section

variable (s : State)

@[simp] theorem completeFrame_asmState : (completeFrame s).asmState = .waitStart := by rw [completeFrame_eq]
@[simp] theorem completeFrame_asmCount : (completeFrame s).asmCount = 0 := by rw [completeFrame_eq]
@[simp] theorem completeFrame_requests : (completeFrame s).requests = s.requests := by rw [completeFrame_eq]
@[simp] theorem completeFrame_responses :
    (completeFrame s).responses =
      s.responses ++ [Rule.validationAnswer (checks s s.asmBuf).1 (checks s s.asmBuf).2] := by rw [completeFrame_eq]

end

section

variable {s : State} (b : Byte)

/-- R170: what FEED can do where the state goes with the count: discard, start, store or complete. -/
theorem exec_feed_cases (h : countFits s.asmState s.asmCount.toNat = true) :
    (s.asmCount.toNat = 0 ∧ b ≠ sentinel ∧ exec (.feed b) s = .next (respond .incomplete [] s)) ∨
    (s.asmCount.toNat = 0 ∧ b = sentinel ∧ exec (.feed b) s = .next (respond .incomplete [] (startAssembly s))) ∨
    (1 ≤ s.asmCount.toNat ∧ s.asmCount.toNat ≤ 69 ∧ exec (.feed b) s = .next (s.fed [b])) ∨
    (s.asmCount.toNat = 70 ∧ exec (.feed b) s = .next (completeFrame (storeByte b s))) := by
  obtain ⟨hle, hst⟩ := eq_asmStateOf_of_countFits h
  obtain h0 | ⟨hlo, hhi⟩ | h70 :
      s.asmCount.toNat = 0 ∨ (1 ≤ s.asmCount.toNat ∧ s.asmCount.toNat ≤ 69) ∨ s.asmCount.toNat = 70 := by omega
  · have hwait : s.asmState = .waitStart := by rw [hst, h0]; rfl
    by_cases hb : b = sentinel
    · subst hb
      exact .inr (.inl ⟨h0, rfl, execFeed_start s hwait⟩)
    · exact .inl ⟨h0, hb, execFeed_discard b s hwait hb⟩
  · exact .inr (.inr (.inl ⟨hlo, hhi, exec_feed_of_lt b hst hlo hhi⟩))
  · exact .inr (.inr (.inr ⟨h70, exec_feed_of_eq b hst h70⟩))

/-- R170: a stored byte other than the first leaves the head of the buffer. -/
theorem getElem_memWrite_head (hlo : 1 ≤ s.asmCount.toNat) :
    (memWrite s.asmBuf s.asmCount.toNat [b])[0] = s.asmBuf[0] :=
  getElem_memWrite_outside _ _ _ 0 _ (.inl hlo)

/-- R26, R27: a response leaves the assembler's invariant. -/
theorem State.AsmInv.respond (hs : s.AsmInv) (st : Status) (data : List Byte) : (respond st data s).AsmInv :=
  ⟨hs.count, hs.head⟩

/-- R26, R27: a new assembly has count 1 and the sentinel at its head. -/
theorem startAssembly_asmInv : (startAssembly s).AsmInv :=
  ⟨rfl, fun _ => by simp [getElem_memWrite]⟩

/-- R26, R27: a stored byte moves the state with the count and leaves the head. -/
theorem fed_asmInv (hs : s.AsmInv) (hlo : 1 ≤ s.asmCount.toNat) (hhi : s.asmCount.toNat ≤ 69) :
    (s.fed [b]).AsmInv := by
  have hcount := toNat_fed_singleton_asmCount b hhi
  refine ⟨?_, fun _ => ?_⟩
  · rw [hcount]
    exact countFits_asmStateOf (Nat.succ_le_succ hhi)
  · simp only [fed_asmBuf, getElem_memWrite_head b hlo, hs.head hlo]

/-- R26: a completed frame leaves the assembler at rest. -/
theorem completeFrame_asmInv : (completeFrame s).AsmInv := by
  refine ⟨by simp only [completeFrame_asmState, completeFrame_asmCount]; rfl, fun h => ?_⟩
  rw [completeFrame_asmCount] at h
  exact absurd h (by decide)

/-- R26, R27: FEED keeps the assembler's invariant. -/
theorem exec_feed_keeps_asmInv {t : State} (hs : s.AsmInv) (h : exec (.feed b) s = .next t) : t.AsmInv := by
  rcases exec_feed_cases b hs.count with ⟨-, -, he⟩ | ⟨-, -, he⟩ | ⟨hlo, hhi, he⟩ | ⟨-, he⟩ <;>
    rw [← Host.Outcome.next.inj (he.symm.trans h)]
  · exact hs.respond .incomplete []
  · exact startAssembly_asmInv.respond .incomplete []
  · exact fed_asmInv b hs hlo hhi
  · exact completeFrame_asmInv

end

/-- R26, R27: every command keeps the assembler's invariant; only FEED and ASM_RESET write what it speaks of. -/
theorem exec_keeps_asmInv {i : Instr} {s t : State} (hs : s.AsmInv) (h : exec i s = .next t) : t.AsmInv := by
  obtain ⟨st, data, u, rfl, hw⟩ := writes_of_exec h
  cases hw
  case feed b _ _ _ => exact exec_feed_keeps_asmInv b hs h
  case asmReset => exact ⟨rfl, fun h1 => absurd (show 1 ≤ 0 from h1) (by decide)⟩
  all_goals exact ⟨hs.count, hs.head⟩

/-- R32: every command keeps the reserved bits of CTRL at 0; a write masks them. -/
theorem exec_keeps_reserved {i : Instr} {s t : State} (hs : s.ctrl &&& 0xFE = 0) (h : exec i s = .next t) :
    t.ctrl &&& 0xFE = 0 := by
  obtain ⟨st, data, u, rfl, hw⟩ := writes_of_exec h
  cases hw
  case ctrl v => rw [respond_ctrl, BitVec.and_assoc]; exact BitVec.and_zero
  all_goals exact hs

/-! Responses. -/

/-- R80: a response of status OK carries its data. -/
theorem okData_cons {n : Nat} {data : List Byte} (h : data.length = n) : okData n (Status.ok.code :: data) :=
  ⟨rfl, by rw [List.length_cons, h, Nat.add_comm]⟩

/-- R80 to R83: an OK response with at most 255 data bytes is legal. -/
theorem legalPacket_of_okData {n : Nat} {r : Packet} (h : okData n r) (hn : n ≤ 255) : legalPacket r = true := by
  obtain ⟨hhead, hlen⟩ := h
  obtain ⟨data, rfl⟩ := List.head?_eq_some_iff.mp hhead
  rw [List.length_cons] at hlen
  simp [legalPacket]
  omega

/-- R81, R83: a response that a command with a packet may give is legal. -/
theorem legalPacket_of_allowedResponse {i : Instr} {r : Packet} (hi : i.wellFormed = true) (h : allowedResponse i r) :
    legalPacket r = true := by
  cases i with
  | feed b =>
    rcases h with rfl | h | rfl | rfl
    · rfl
    · exact legalPacket_of_okData h (by decide)
    · rfl
    · rfl
  | prepare src tgt ty p =>
    rcases h with h | rfl
    · exact legalPacket_of_okData h (by decide)
    · rfl
  | validate =>
    rcases h with h | rfl | rfl | rfl
    · exact legalPacket_of_okData h (by decide)
    · rfl
    · rfl
    · rfl
  | asmReset | frameWrite | setKey => obtain rfl := h; rfl
  | frameRead | checksum => exact legalPacket_of_okData h (by decide)
  | obfuscate d | deobfuscate d => exact legalPacket_of_okData h (of_decide_eq_true hi)
  | regRead a =>
    rcases h with h | rfl
    · exact legalPacket_of_okData h (by decide)
    · rfl
  | regWrite a v => rcases h with rfl | rfl <;> rfl

/-- R81, R153: the answers of a validation behind a good start byte. -/
theorem validationAnswer_checks_of_sentinel {s : State} {f : Frame} (h : f[0] = sentinel) :
    okData 71 (Rule.validationAnswer (checks s f).1 (checks s f).2) ∨
      Rule.validationAnswer (checks s f).1 (checks s f).2 = [0x03] ∨
      Rule.validationAnswer (checks s f).1 (checks s f).2 = [0x04] := by
  rcases checks_frame s f with ⟨-, hst⟩ | ⟨-, hst | hst | hst⟩
  · exact absurd h ((checks_invalidStart_iff s f).mp hst)
  · exact .inr (.inl (by rw [hst]; rfl))
  · exact .inr (.inr (by rw [hst]; rfl))
  · exact .inl (by rw [hst]; exact okData_cons Vector.length_toList)

/-- R81, R153: the answers of a validation. -/
theorem validationAnswer_checks (s : State) (f : Frame) :
    allowedResponse .validate (Rule.validationAnswer (checks s f).1 (checks s f).2) := by
  by_cases h : f[0] = sentinel
  · rcases validationAnswer_checks_of_sentinel (s := s) h with hr | hr
    · exact .inl hr
    · exact .inr (.inr hr)
  · exact .inr (.inl (by rw [checks_of_ne_sentinel s h]; rfl))

/-- R81, R173: the responses to FEED; behind the sentinel a completed frame is never INVALID_START. -/
theorem exec_feed_allowed (b : Byte) {s : State} (hs : s.AsmInv) : ∃ t r,
    exec (.feed b) s = .next t ∧ t.requests = s.requests ∧ t.responses = s.responses ++ [r] ∧
      allowedResponse (.feed b) r := by
  rcases exec_feed_cases b hs.count with ⟨-, -, he⟩ | ⟨-, -, he⟩ | ⟨-, -, he⟩ | ⟨h70, he⟩
  · exact ⟨_, _, he, rfl, rfl, .inl rfl⟩
  · exact ⟨_, _, he, rfl, rfl, .inl rfl⟩
  · exact ⟨_, _, he, rfl, rfl, .inl rfl⟩
  · have hlo : 1 ≤ s.asmCount.toNat := by omega
    have hhead : (storeByte b s).asmBuf[0] = sentinel := by
      simp only [storeByte_asmBuf, getElem_memWrite_head b hlo, hs.head hlo]
    exact ⟨_, _, he, by rw [completeFrame_requests, storeByte_requests],
      by rw [completeFrame_responses, storeByte_responses],
      .inr (validationAnswer_checks_of_sentinel hhead)⟩

/-- R81: each command ends in one response that its row allows. -/
theorem exec_allowed (i : Instr) {s : State} (hs : s.AsmInv) : ∃ t r,
    exec i s = .next t ∧ t.requests = s.requests ∧ t.responses = s.responses ++ [r] ∧ allowedResponse i r := by
  cases i with
  | feed b => exact exec_feed_allowed b hs
  | asmReset => exact ⟨_, _, exec_asmReset s, rfl, rfl, rfl⟩
  | prepare src tgt ty p =>
    rcases Nat.lt_or_ge payloadCap p.length with h | h
    · exact ⟨_, _, exec_prepare_oversize src tgt ty s h, rfl, rfl, .inr rfl⟩
    · have hlen := length_wireForm (plainFrame src tgt ty p) s.key (length_plainFrame src tgt ty p h)
      exact ⟨_, _, exec_prepare_ok src tgt ty s h, respond_requests _ _ _, respond_responses _ _ _,
        .inl (okData_cons hlen)⟩
  | validate => exact ⟨_, _, exec_validate s, rfl, rfl, validationAnswer_checks s s.frameBuf⟩
  | frameWrite f => exact ⟨_, _, exec_frameWrite s f, rfl, rfl, rfl⟩
  | frameRead => exact ⟨_, _, exec_frameRead s, rfl, rfl, okData_cons Vector.length_toList⟩
  | checksum d => exact ⟨_, _, exec_checksum d s, rfl, rfl, okData_cons rfl⟩
  | obfuscate d => exact ⟨_, _, exec_obfuscate d s, rfl, rfl, okData_cons (length_obf d s.key)⟩
  | deobfuscate d => exact ⟨_, _, exec_deobfuscate d s, rfl, rfl, okData_cons (length_deobf d s.key)⟩
  | setKey k => exact ⟨_, _, exec_setKey k s, rfl, rfl, rfl⟩
  | regRead a =>
    refine ⟨_, _, exec_regRead s, rfl, rfl, ?_⟩
    cases readReg s a with
    | some v => exact .inl (okData_cons rfl)
    | none => exact .inr rfl
  | regWrite a v =>
    cases h : writeReg s a v with
    | none => exact ⟨_, _, exec_regWrite_badRegister h, rfl, rfl, .inr rfl⟩
    | some t =>
      rcases writeReg_cases s a v t h with ⟨-, rfl⟩ | ⟨-, rfl⟩ | ⟨-, rfl⟩ <;>
        exact ⟨_, _, exec_regWrite_ok h, rfl, rfl, .inl rfl⟩

/-- R83: one more legal response keeps all responses legal. -/
theorem legalPacket_append {rs : List Packet} {r : Packet} (hrs : ∀ r ∈ rs, legalPacket r = true)
    (hr : legalPacket r = true) : ∀ r' ∈ rs ++ [r], legalPacket r' = true := by
  intro r' h
  rcases List.mem_append.mp h with h | h
  · exact hrs r' h
  · exact List.mem_singleton.mp h ▸ hr

/-- R26, R27, R32, R83: every command that has a packet keeps the invariant. -/
theorem exec_keeps_inv {i : Instr} {s t : State} (hi : i.wellFormed = true) (hs : s.Inv) (h : exec i s = .next t) :
    t.Inv := by
  obtain ⟨hcount, hhead⟩ := exec_keeps_asmInv hs.asm h
  obtain ⟨t', r, he, -, hresp, hallowed⟩ := exec_allowed i hs.asm
  obtain rfl := Host.Outcome.next.inj (he.symm.trans h)
  exact ⟨hcount, hhead, exec_keeps_reserved hs.reserved h,
    hresp ▸ legalPacket_append hs.answers (legalPacket_of_allowedResponse hi hallowed)⟩

/-- R79, R83: the answer to an illegal opcode keeps the invariant. -/
theorem answerIllegal_keeps_inv {s : State} (hs : s.Inv) : (answerIllegal s).Inv :=
  ⟨hs.count, hs.head, hs.reserved, legalPacket_append hs.answers rfl⟩

/-- R26, R27, R32, R83: the state after reset meets the invariant. -/
theorem reset_inv : State.reset.Inv where
  count := rfl
  head h := absurd h (by decide)
  reserved := rfl
  answers _ h := absurd h List.not_mem_nil

end Sys2Proof.Machine

section

open Sys2Proof Sys2Proof.Machine

/-- Settles O38: a step changes nothing, or answers an illegal opcode, or runs a decoded command, which has a packet. -/
theorem stepKeepsInvariant : Obligations.StepKeepsInvariant := by
  unfold Obligations.StepKeepsInvariant
  intro s t hs h
  rcases step_next_cases h with ⟨-, rfl⟩ | ⟨i, rest, hdec, he⟩ | ⟨op, rest, -, rfl⟩
  · exact hs
  · obtain ⟨hwf, -⟩ := wellFormed_and_eq_encode_of_decode hdec
    exact exec_keeps_inv hwf (hs.withRequests rest) he
  · exact answerIllegal_keeps_inv (hs.withRequests rest)

/-- Settles O39: the assembler is at rest, CTRL is 0 and no response has been sent. -/
theorem resetMeetsInvariant : Obligations.ResetMeetsInvariant := by
  unfold Obligations.ResetMeetsInvariant
  exact reset_inv

/-- Settles O10: command by command, from the assembler's part of the invariant. -/
theorem responsesPerCommand : Obligations.ResponsesPerCommand := by
  unfold Obligations.ResponsesPerCommand
  exact fun i s hs => exec_allowed i hs.asm

end

end

section
/-! SUPPORT. What no command shows: DEFAULT_TARGET, but for REG_READ of its own address, and the bytes of ASM_BUF from
ASM_COUNT on (spec/10_state.md R27, R31, R35; spec/43_assembler.md R174); with them O43 and O44. -/

namespace Sys2Proof.Machine

/-- R170: the 71st byte leaves the validated frame and the rule's answer, from what validation reads before it. -/
theorem completeFrame_storeByte_eq (b : Byte) (s : State) :
    completeFrame (storeByte b s) =
      { s with
        asmBuf := (checks s (memWrite s.asmBuf s.asmCount.toNat [b])).2
        asmCount := 0
        asmState := .waitStart
        responses := s.responses ++
          [Rule.validationAnswer (checks s (memWrite s.asmBuf s.asmCount.toNat [b])).1
            (checks s (memWrite s.asmBuf s.asmCount.toNat [b])).2] } := by
  have hchecks (f : Frame) : checks (storeByte b s) f = checks s f :=
    checks_congr s _ f (storeByte_key s b) (storeByte_ctrl s b) (storeByte_localId s b)
  simp only [completeFrame_eq, hchecks, storeByte_asmBuf]
  simp only [storeByte]

section

/-! DEFAULT_TARGET. -/

variable (s : State) (v : Byte)

/-- R149: validation does not read DEFAULT_TARGET. -/
theorem checks_defaultTarget (f : Frame) : checks { s with defaultTarget := v } f = checks s f :=
  checks_congr s _ f rfl rfl rfl

/-- R31: FEED neither reads nor writes DEFAULT_TARGET. -/
theorem exec_feed_defaultTarget (b : Byte) : ∃ t,
    exec (.feed b) s = .next t ∧
      exec (.feed b) { s with defaultTarget := v } = .next { t with defaultTarget := v } := by
  rw [exec_feed, exec_feed]
  simp only [execFeed, startAssembly, appendByte, nextCount, completeFrame_storeByte_eq, checks_defaultTarget]
  split
  · split <;> exact ⟨_, rfl, rfl⟩
  · exact ⟨_, rfl, rfl⟩
  · exact ⟨_, rfl, rfl⟩
  · split
    · exact ⟨_, rfl, rfl⟩
    · exact ⟨_, rfl, by dsimp only⟩

/-- R33: REG_READ of another address does not read DEFAULT_TARGET. -/
theorem readReg_defaultTarget_of_ne {a : Byte} (h : a ≠ 0x04) :
    readReg { s with defaultTarget := v } a = readReg s a := by
  simp only [readReg, if_neg h]
  rfl

/-- R33: a register write to an address that takes it, or not, is the same whatever DEFAULT_TARGET holds. -/
theorem exec_regWrite_defaultTarget (a x : Byte) : ∃ t w,
    exec (.regWrite a x) s = .next t ∧
      exec (.regWrite a x) { s with defaultTarget := v } = .next { t with defaultTarget := w } := by
  simp only [exec, execRegWrite, writeReg]
  split_ifs <;> exact ⟨_, _, rfl, rfl⟩

/-- R31, D32: every command but REG_READ of DEFAULT_TARGET does the same whatever DEFAULT_TARGET holds. -/
theorem exec_defaultTarget {i : Instr} (hi : i ≠ .regRead 0x04) : ∃ t w,
    exec i s = .next t ∧ exec i { s with defaultTarget := v } = .next { t with defaultTarget := w } := by
  cases i with
  | feed b =>
    obtain ⟨t, he, he'⟩ := exec_feed_defaultTarget s v b
    exact ⟨t, v, he, he'⟩
  | prepare src tgt ty p =>
    rcases Nat.lt_or_ge payloadCap p.length with h | h
    · exact ⟨_, v, exec_prepare_oversize src tgt ty s h, exec_prepare_oversize src tgt ty _ h⟩
    · exact ⟨_, v, exec_prepare_ok src tgt ty s h, exec_prepare_ok src tgt ty _ h⟩
  | validate => exact ⟨_, v, exec_validate s, by rw [exec_validate, checks_defaultTarget]⟩
  | regRead a =>
    have ha : a ≠ 0x04 := fun h => hi (congrArg _ h)
    exact ⟨_, v, exec_regRead s, by rw [exec_regRead, readReg_defaultTarget_of_ne s v ha]⟩
  | regWrite a x => exact exec_regWrite_defaultTarget s v a x
  | asmReset | frameWrite | frameRead | checksum | obfuscate | deobfuscate | setKey => exact ⟨_, v, rfl, rfl⟩

end

section

/-! ASM_BUF from ASM_COUNT on. -/

/-- R27: two assembly buffers that agree below a count. -/
def AgreeBelow (c : Nat) (f g : Frame) : Prop := ∀ (i : Nat) (_ : i < 71), i < c → g[i] = f[i]

variable {s : State} {buf : Frame}

/-- R149: validation does not read ASM_BUF. -/
theorem checks_asmBuf (s : State) (buf f : Frame) : checks { s with asmBuf := buf } f = checks s f :=
  checks_congr s _ f rfl rfl rfl

/-- R170: a byte stored at the count makes the buffers agree below the next count. -/
theorem AgreeBelow.memWrite {c : Nat} {f g : Frame} (h : AgreeBelow c f g) (b : Byte) :
    AgreeBelow (c + 1) (memWrite f c [b]) (memWrite g c [b]) := by
  intro i hi hc
  rw [getElem_memWrite, getElem_memWrite]
  split
  · rfl
  · rename_i hout
    rw [List.length_singleton] at hout
    exact h i hi (by omega)

/-- Buffers that agree below the frame size are equal. -/
theorem AgreeBelow.eq {f g : Frame} (h : AgreeBelow 71 f g) : g = f :=
  Vector.ext fun i hi => h i hi hi

/-- R174: FEED does the same whatever ASM_BUF holds from ASM_COUNT on. -/
theorem exec_feed_asmBuf (hs : s.AsmInv) (h : AgreeBelow s.asmCount.toNat s.asmBuf buf) (b : Byte) : ∃ t buf',
    exec (.feed b) s = .next t ∧ exec (.feed b) { s with asmBuf := buf } = .next { t with asmBuf := buf' } ∧
      AgreeBelow t.asmCount.toNat t.asmBuf buf' := by
  obtain ⟨-, hst⟩ := eq_asmStateOf_of_countFits hs.count
  have hwait (h0 : s.asmCount.toNat = 0) : s.asmState = .waitStart := by rw [hst, h0]; rfl
  rcases exec_feed_cases b hs.count with ⟨h0, hb, he⟩ | ⟨h0, rfl, he⟩ | ⟨hlo, hhi, he⟩ | ⟨h70, he⟩
  · exact ⟨_, buf, he, execFeed_discard b { s with asmBuf := buf } (hwait h0) hb, h⟩
  · exact ⟨_, (startAssembly s).asmBuf, he, execFeed_start { s with asmBuf := buf } (hwait h0), fun _ _ _ => rfl⟩
  · refine ⟨_, memWrite buf s.asmCount.toNat [b], he,
      exec_feed_of_lt (s := { s with asmBuf := buf }) b hst hlo hhi, ?_⟩
    rw [toNat_fed_singleton_asmCount b hhi, fed_asmBuf]
    exact h.memWrite b
  · have hbuf : memWrite buf s.asmCount.toNat [b] = memWrite s.asmBuf s.asmCount.toNat [b] := by
      have hnext := h.memWrite b
      rw [h70] at hnext ⊢
      exact hnext.eq
    have he' := exec_feed_of_eq (s := { s with asmBuf := buf }) b hst h70
    rw [completeFrame_storeByte_eq] at he he'
    dsimp only at he'
    rw [hbuf, checks_asmBuf] at he'
    exact ⟨_, _, he, he', fun _ _ hc => absurd hc (Nat.not_lt_zero _)⟩

/-- R22, R27: a command other than FEED and ASM_RESET neither reads nor writes ASM_BUF. -/
theorem exec_asmBuf_of_ne (s : State) (buf : Frame) {i : Instr} (hfeed : ∀ b, i ≠ .feed b)
    (hreset : i ≠ .asmReset) : ∃ t,
    exec i s = .next t ∧ exec i { s with asmBuf := buf } = .next { t with asmBuf := buf } := by
  cases i with
  | feed b => exact absurd rfl (hfeed b)
  | asmReset => exact absurd rfl hreset
  | prepare src tgt ty p =>
    rcases Nat.lt_or_ge payloadCap p.length with h | h
    · exact ⟨_, exec_prepare_oversize src tgt ty s h, exec_prepare_oversize src tgt ty _ h⟩
    · exact ⟨_, exec_prepare_ok src tgt ty s h, exec_prepare_ok src tgt ty _ h⟩
  | validate => exact ⟨_, exec_validate s, by rw [exec_validate, checks_asmBuf]⟩
  | regRead a => exact ⟨_, exec_regRead s, exec_regRead _⟩
  | regWrite a v =>
    simp only [exec, execRegWrite, writeReg]
    split_ifs <;> exact ⟨_, rfl, rfl⟩
  | frameWrite | frameRead | checksum | obfuscate | deobfuscate | setKey => exact ⟨_, rfl, rfl⟩

/-- R27, R174: every command does the same whatever ASM_BUF holds from ASM_COUNT on. -/
theorem exec_asmBuf (hs : s.AsmInv) (h : AgreeBelow s.asmCount.toNat s.asmBuf buf) (i : Instr) : ∃ t buf',
    exec i s = .next t ∧ exec i { s with asmBuf := buf } = .next { t with asmBuf := buf' } ∧
      AgreeBelow t.asmCount.toNat t.asmBuf buf' := by
  by_cases hfeed : ∃ b, i = .feed b
  · obtain ⟨b, rfl⟩ := hfeed
    exact exec_feed_asmBuf hs h b
  · rw [not_exists] at hfeed
    by_cases hreset : i = .asmReset
    · subst hreset
      exact ⟨_, zeroFrame, exec_asmReset s, exec_asmReset _, fun _ _ _ => rfl⟩
    · obtain ⟨t, he, he'⟩ := exec_asmBuf_of_ne s buf hfeed hreset
      obtain ⟨hasm, -⟩ := writersOfEachElement i s t he
      obtain ⟨-, hcount, hbuf⟩ := hasm hfeed hreset
      exact ⟨t, buf, he, he', by rwa [hcount, hbuf]⟩

/-- R27, R35, R174: nor does any sequence of commands. -/
theorem runCommands_asmBuf (hs : s.AsmInv) (h : AgreeBelow s.asmCount.toNat s.asmBuf buf) (is : List Instr) :
    ∃ t buf', runCommands is s = .next t ∧
      runCommands is { s with asmBuf := buf } = .next { t with asmBuf := buf' } := by
  induction is generalizing s buf with
  | nil => exact ⟨s, buf, rfl, rfl⟩
  | cons i is ih =>
    obtain ⟨t, buf', he, he', ht⟩ := exec_asmBuf hs h i
    rw [runCommands, runCommands, he, he']
    exact ih (exec_keeps_asmInv hs he) ht

end

end Sys2Proof.Machine

section

open Sys2Proof Sys2Proof.Machine

/-- Settles O43: command by command; what each reads and writes is not DEFAULT_TARGET, or is replaced whole. -/
theorem defaultTargetUnread : Obligations.DefaultTargetUnread := by
  unfold Obligations.DefaultTargetUnread
  exact fun i s v hi => exec_defaultTarget s v hi

/-- Settles O44: FEED writes an offset before the count passes it and validates only when all 71 have been written. -/
theorem staleAssemblyBytesUnobservable : Obligations.StaleAssemblyBytesUnobservable := by
  unfold Obligations.StaleAssemblyBytesUnobservable
  exact fun is s buf hs h => runCommands_asmBuf hs.asm h is

end

end

section
/-! SUPPORT. The reset signal's port, a step of one block of a platform, the host's timeout duty, the pseudo-commands
and the boot order (spec/10_state.md R34; spec/30_encoding.md R85; spec/60_exceptions.md R236;
spec/70_reset_and_hazards.md R250, R253); with them O41, O45, O46, O47 and O48. -/

namespace Sys2Proof.Machine

/-- R78: the first packet has the length its opcode gives it, whether the opcode is defined or not. -/
theorem packetLength_cons (op : Byte) (bs : List Byte) : packetLength (op :: bs) = Rule.lengthByOpcode op bs := by
  rcases illegalOpcode_or_code op with h | ⟨o, rfl⟩
  · rw [lengthByOpcode_of_illegalOpcode h, packetLength, (illegalOpcode_iff_ofByte op).mp h]
  · rw [lengthByOpcode_code]

section

variable (link : Nat) (s : State)

/-- R250: with no command in progress the reset signal leaves the port. -/
@[simp] theorem resetSignal_false_requests : (resetSignal link false s).requests = s.requests := rfl

/-- R250: a command in progress loses its packet. -/
@[simp] theorem resetSignal_true_requests : (resetSignal link true s).requests = afterFirstPacket s.requests := rfl

end

/-- R34, R241: a platform's next state has one block's own next state in its place. -/
theorem stepLink_next {n : Nat} {p q : Platform n} {k : Fin n} (h : p.stepLink k = .next q) :
    ∃ t, step p[k] = .next t ∧ q = p.set k t := by
  unfold Platform.stepLink at h
  split at h
  · rename_i t ht
    exact ⟨t, ht, (Host.Outcome.next.inj h).symm⟩
  · cases h
  · cases h

/-- R85, R253: the boot order is four commands, whatever the filter choice. -/
theorem bootSequence_eq (k : Key) (id : Byte) (filter : Bool) (target : Byte) :
    bootSequence k id filter target =
      [.setKey k, .regWrite 0x03 id, .regWrite 0x02 (if filter then 0x01 else 0x00), .regWrite 0x04 target] := by
  cases filter <;> rfl

/-- R32: the filter choice has no reserved bits. -/
theorem filterChoice_and_one (filter : Bool) :
    (if filter then 0x01 else 0x00 : Byte) &&& 0x01 = if filter then 0x01 else 0x00 := by
  cases filter <;> rfl

end Sys2Proof.Machine

section

open Sys2Proof Sys2Proof.Machine Sys2Proof.Rule

/-- Settles O41: what follows the first packet is what lies past its opcode's length; after reset nothing waits. -/
theorem resetSignalPort : Obligations.ResetSignalPort := by
  unfold Obligations.ResetSignalPort
  refine ⟨fun link s => ⟨resetSignal_false_requests link s, fun op bs h => ?_⟩, fun inProgress => ?_⟩
  · rw [resetSignal_true_requests, h, afterFirstPacket, packetLength_cons]
  · cases inProgress <;> rfl

/-- Settles O45: the platform is set at the stepping block and nowhere else. -/
theorem instancesIndependent : Obligations.InstancesIndependent := by
  unfold Obligations.InstancesIndependent
  intro n p q k h
  obtain ⟨t, ht, rfl⟩ := stepLink_next h
  refine ⟨by simpa using ht, fun j hj => ?_⟩
  exact Vector.getElem_set_ne _ _ fun hkj => hj (Fin.ext hkj.symm)

/-- Settles O46: the rows of the table, one by one. -/
theorem pseudoCommandExpansions : Obligations.PseudoCommandExpansions := by
  unfold Obligations.PseudoCommandExpansions
  exact ⟨rfl, rfl, rfl, fun _ => rfl, fun _ => rfl, fun _ => rfl, fun _ => rfl⟩

/-- Settles O47: each of the four commands writes one element and answers OK. -/
theorem bootSequenceConfigures : Obligations.BootSequenceConfigures := by
  unfold Obligations.BootSequenceConfigures
  intro k id target filter s
  simp only [bootSequence_eq, runCommands, exec_setKey, exec_regWrite_ok (writeReg_localId _ _),
    exec_regWrite_ok (writeReg_ctrl _ _), exec_regWrite_ok (writeReg_defaultTarget _ _), filterChoice_and_one]
  simp [respond, Status.code]

/-- Settles O48: the duty's own condition, met and not met. -/
theorem timeoutDutyIsAsmReset : Obligations.TimeoutDutyIsAsmReset := by
  unfold Obligations.TimeoutDutyIsAsmReset
  exact fun _ _ => ⟨fun h => if_pos h, fun h => if_neg h⟩

end

end

section
/-! SUPPORT. The printed mnemonic form, read back: digits, numbers and byte lists, the tokens of a line, operands, and
the forms of the commands (spec/30_encoding.md R84; log 15); with it O49. -/

namespace Sys2Proof.Machine

/-! Digits and numbers. -/

/-- R84: a printed hexadecimal digit has its value. -/
theorem digitValue_hexDigit : ∀ n < 16, digitValue 16 (hexDigit n) = some n := by decide

/-- R84: the two digits of a byte have the byte's value. -/
theorem byteOfDigits_hexByte (b : Byte) : byteOfDigits 16 (hexByte b) = some b := by
  have hb := b.isLt
  have hvalue : b.toNat / 16 * 16 + b.toNat % 16 = b.toNat := Nat.div_add_mod' _ _
  rw [byteOfDigits, if_neg (by rw [hexByte]; exact List.cons_ne_nil _ _)]
  simp only [hexByte, digitsValue, digitValue_hexDigit _ (show b.toNat / 16 < 16 by omega),
    digitValue_hexDigit _ (show b.toNat % 16 < 16 by omega), Option.bind_some, Nat.zero_mul, Nat.zero_add, hvalue,
    if_pos (show b.toNat ≤ 255 by omega), BitVec.ofNat_toNat, BitVec.setWidth_eq]

/-- R84: a printed number is read back. -/
theorem readNumber_hexNumber (b : Byte) : readNumber (hexNumber b) = some b := byteOfDigits_hexByte b

/-! Characters and tokens. -/

/-- R84: a character that stands in a word: no blank, no separator, no bracket, no comment sign. -/
def plainChar (c : Char) : Bool := c ∉ [';', ' ', ',', '[', ']']

theorem plainChar_eq_true_iff (c : Char) :
    plainChar c = true ↔ c ≠ ';' ∧ c ≠ ' ' ∧ c ≠ ',' ∧ c ≠ '[' ∧ c ≠ ']' := by
  simp [plainChar]

theorem plainChar_eq_false_iff (c : Char) :
    plainChar c = false ↔ c = ';' ∨ c = ' ' ∨ c = ',' ∨ c = '[' ∨ c = ']' := by
  rw [← Bool.not_eq_true, plainChar_eq_true_iff]
  tauto

/-- R84: what may follow a word: the end of the line, or a character that stands in no word. -/
def EndsWord (cs : List Char) : Prop := ∀ c ∈ cs.head?, plainChar c = false

theorem endsWord_nil : EndsWord [] := fun _ h => nomatch h

theorem endsWord_cons {c : Char} (cs : List Char) (h : plainChar c = false) : EndsWord (c :: cs) :=
  fun _ hc => Option.some.inj hc ▸ h

section

variable (acc w cs : List Char)

@[simp] theorem flushWord_nil (ts : List Token) : flushWord [] ts = ts := rfl

@[simp] theorem lexLine_nil : lexLine [] [] = [] := rfl
@[simp] theorem lexLine_space : lexLine [] (' ' :: cs) = lexLine [] cs := rfl
@[simp] theorem lexLine_comma : lexLine [] (',' :: cs) = .comma :: lexLine [] cs := rfl
@[simp] theorem lexLine_listStart : lexLine [] ('[' :: cs) = .listStart :: lexLine [] cs := rfl
@[simp] theorem lexLine_listEnd : lexLine [] (']' :: cs) = .listEnd :: lexLine [] cs := rfl

variable {w cs}

/-- R84: the characters of a word are gathered. -/
theorem lexLine_append_of_plain (hw : ∀ c ∈ w, plainChar c = true) :
    lexLine acc (w ++ cs) = lexLine (w.reverse ++ acc) cs := by
  induction w generalizing acc with
  | nil => rfl
  | cons c w ih =>
    obtain ⟨hc, hw'⟩ := List.forall_mem_cons.mp hw
    have hlex : lexLine acc (c :: (w ++ cs)) = lexLine (c :: acc) (w ++ cs) := by
      obtain ⟨h1, h2, h3, h4, h5⟩ := (plainChar_eq_true_iff c).mp hc
      rw [lexLine, if_neg h1, if_neg h2, if_neg h3, if_neg h4, if_neg h5]
    rw [List.cons_append, hlex, ih (c :: acc) hw', List.reverse_cons, List.append_assoc]
    rfl

/-- R84: at its end a word becomes a token. -/
theorem lexLine_of_endsWord (h : EndsWord cs) : lexLine acc cs = flushWord acc (lexLine [] cs) := by
  cases cs with
  | nil => rfl
  | cons c cs =>
    rcases (plainChar_eq_false_iff c).mp (h c rfl) with rfl | rfl | rfl | rfl | rfl <;> rfl

/-- R84: a word, read from its first character. -/
theorem lexLine_word (hne : w ≠ []) (hw : ∀ c ∈ w, plainChar c = true) (h : EndsWord cs) :
    lexLine [] (w ++ cs) = .word w :: lexLine [] cs := by
  rw [lexLine_append_of_plain [] hw, lexLine_of_endsWord _ h, List.append_nil, flushWord,
    if_neg (List.reverse_ne_nil_iff.mpr hne), List.reverse_reverse]

end

/-- R84: a printed digit stands in a word. -/
theorem plainChar_hexDigit : ∀ n < 16, plainChar (hexDigit n) = true := by decide

theorem plainChar_of_mem_hexByte (b : Byte) : ∀ c ∈ hexByte b, plainChar c = true := by
  have hb := b.isLt
  simp only [hexByte, List.forall_mem_cons, List.not_mem_nil]
  exact ⟨plainChar_hexDigit _ (by omega), plainChar_hexDigit _ (by omega), fun _ h => h.elim⟩

theorem plainChar_of_mem_hexNumber (b : Byte) : ∀ c ∈ hexNumber b, plainChar c = true :=
  List.forall_mem_cons.mpr ⟨rfl, List.forall_mem_cons.mpr ⟨rfl, plainChar_of_mem_hexByte b⟩⟩

/-- R84: a byte in a list is one word. -/
theorem lexLine_hexByte (b : Byte) {cs : List Char} (h : EndsWord cs) :
    lexLine [] (hexByte b ++ cs) = .word (hexByte b) :: lexLine [] cs :=
  lexLine_word (List.cons_ne_nil _ _) (plainChar_of_mem_hexByte b) h

/-- R84: the bytes of a list up to its closing bracket. -/
theorem lexLine_hexBytes (d : List Byte) (cs : List Char) :
    lexLine [] (((d.map hexByte).intersperse [' ']).flatten ++ ']' :: cs) =
      d.map (fun b => .word (hexByte b)) ++ .listEnd :: lexLine [] cs := by
  induction d with
  | nil => rfl
  | cons b d ih =>
    cases d with
    | nil => simpa using lexLine_hexByte b (endsWord_cons (c := ']') cs rfl)
    | cons b' d =>
      simp only [List.map_cons, List.intersperse_cons_cons, List.flatten_cons, List.append_assoc, List.cons_append,
        List.nil_append] at ih ⊢
      rw [lexLine_hexByte b (endsWord_cons _ rfl), lexLine_space, ih]

/-! Operands. -/

/-- R84: an operand as it is printed. -/
def Operand.text : Operand → List Char
  | .number b => hexNumber b
  | .bytes d => hexList d

/-- R84: the tokens of a printed operand. -/
def Operand.tokens : Operand → List Token
  | .number b => [.word (hexNumber b)]
  | .bytes d => .listStart :: (d.map (fun b => .word (hexByte b)) ++ [.listEnd])

/-- R84: the tokens of printed operands. -/
def operandTokens (ops : List Operand) : List Token := ((ops.map Operand.tokens).intersperse [.comma]).flatten

/-- R84: a printed operand is its tokens. -/
theorem lexLine_text (o : Operand) {cs : List Char} (h : EndsWord cs) :
    lexLine [] (o.text ++ cs) = o.tokens ++ lexLine [] cs := by
  cases o with
  | number b => exact lexLine_word (List.cons_ne_nil _ _) (plainChar_of_mem_hexNumber b) h
  | bytes d => simp [Operand.text, Operand.tokens, hexList, lexLine_hexBytes]

/-- R84: printed operands, with their commas, are their tokens. -/
theorem lexLine_texts (ops : List Operand) :
    lexLine [] ((ops.map Operand.text).intersperse [',', ' ']).flatten = operandTokens ops := by
  unfold operandTokens
  induction ops with
  | nil => rfl
  | cons o ops ih =>
    cases ops with
    | nil => simpa using lexLine_text o endsWord_nil
    | cons o' ops =>
      simp only [List.map_cons, List.intersperse_cons_cons, List.flatten_cons, List.cons_append,
        List.nil_append] at ih ⊢
      rw [lexLine_text o (endsWord_cons _ rfl), lexLine_comma, lexLine_space, ih]

/-- R84: the tokens of a byte list are read back. -/
theorem readList_tokens (d : List Byte) (ts : List Token) :
    readList (d.map (fun b => .word (hexByte b)) ++ .listEnd :: ts) = some (d, ts) := by
  induction d with
  | nil => rfl
  | cons b d ih =>
    rw [List.map_cons, List.cons_append, readList, byteOfDigits_hexByte, ih]
    rfl

/-- R84: the tokens of an operand are read back. -/
theorem readOperand_tokens (o : Operand) (ts : List Token) : readOperand (o.tokens ++ ts) = some (o, ts) := by
  cases o with
  | number b => simp [Operand.tokens, readOperand, readNumber_hexNumber]
  | bytes d => simp [Operand.tokens, readOperand, readList_tokens]

/-- R84: the tokens of at most `n` operands are read back. -/
theorem readOperands_tokens (n : Nat) (o : Operand) (ops : List Operand) (h : ops.length < n) :
    readOperands n (operandTokens (o :: ops)) = some (o :: ops) := by
  unfold operandTokens
  induction ops generalizing n o with
  | nil =>
    obtain ⟨m, rfl⟩ := Nat.exists_eq_succ_of_ne_zero (Nat.ne_of_gt h)
    have hread := readOperand_tokens o []
    rw [List.append_nil] at hread
    simp [readOperands, hread]
  | cons o' ops ih =>
    obtain ⟨m, rfl⟩ := Nat.exists_eq_succ_of_ne_zero (Nat.ne_zero_of_lt h)
    have htail := ih m o' (Nat.lt_of_succ_lt_succ h)
    simp only [List.map_cons, List.intersperse_cons_cons, List.flatten_cons, List.cons_append,
      List.nil_append] at htail ⊢
    rw [readOperands, readOperand_tokens]
    simp [htail]

/-- R84: every operand has a token. -/
theorem length_tokens_pos (o : Operand) : 0 < o.tokens.length := by
  cases o <;> simp [Operand.tokens]

/-- R84: there are at least as many tokens as operands. -/
theorem length_le_length_operandTokens (ops : List Operand) : ops.length ≤ (operandTokens ops).length := by
  unfold operandTokens
  induction ops with
  | nil => exact Nat.le_refl 0
  | cons o ops ih =>
    have ho := length_tokens_pos o
    cases ops with
    | nil => simpa using Nat.succ_le_of_lt ho
    | cons o' ops =>
      simp only [List.map_cons, List.intersperse_cons_cons, List.flatten_cons, List.length_append,
        List.length_cons] at ih ⊢
      omega

/-- R84: what follows the mnemonic of a line, as `assembleLine` reads it. -/
theorem readAllOperands_tokens (ops : List Operand) :
    (if operandTokens ops = [] then some [] else readOperands (operandTokens ops).length (operandTokens ops)) =
      some ops := by
  cases ops with
  | nil => rfl
  | cons o ops =>
    have hlen := length_le_length_operandTokens (o :: ops)
    have hne : operandTokens (o :: ops) ≠ [] := List.ne_nil_of_length_pos (Nat.lt_of_lt_of_le (Nat.succ_pos _) hlen)
    rw [if_neg hne, readOperands_tokens _ o ops hlen]

end Sys2Proof.Machine

namespace Sys2Proof

open Machine

/-! The forms of the commands. -/

/-- R84: a command's mnemonic. -/
def Instr.mnemonic : Instr → List Char
  | .feed _ => "FEED".toList
  | .asmReset => "ASM_RESET".toList
  | .prepare _ _ _ _ => "PREPARE".toList
  | .validate => "VALIDATE".toList
  | .frameWrite _ => "FRAME_WRITE".toList
  | .frameRead => "FRAME_READ".toList
  | .checksum _ => "CHECKSUM".toList
  | .obfuscate _ => "OBFUSCATE".toList
  | .deobfuscate _ => "DEOBFUSCATE".toList
  | .setKey _ => "SET_KEY".toList
  | .regRead _ => "REG_READ".toList
  | .regWrite _ _ => "REG_WRITE".toList

/-- R84: a command's operands, in the order of its form. -/
def Instr.operands : Instr → List Operand
  | .feed b => [.number b]
  | .asmReset => []
  | .prepare src tgt ty p => [.number src, .number tgt, .number ty, .bytes p]
  | .validate => []
  | .frameWrite f => [.bytes f.toList]
  | .frameRead => []
  | .checksum d => [.bytes d]
  | .obfuscate d => [.bytes d]
  | .deobfuscate d => [.bytes d]
  | .setKey k => [.bytes k.toList]
  | .regRead a => [.number a]
  | .regWrite a v => [.number a, .number v]

end Sys2Proof

namespace Sys2Proof.Machine

/-- R84: a line is the mnemonic alone, or the mnemonic and its operands. -/
theorem instrText_eq (i : Instr) :
    instrText i =
      i.mnemonic ++ if i.operands = [] then [] else operandText (i.operands.map Operand.text) := by
  cases i <;> rfl

theorem mnemonic_ne_nil (i : Instr) : i.mnemonic ≠ [] := by
  cases i <;> exact List.cons_ne_nil _ _

/-- R84: a mnemonic is one word. -/
theorem plainChar_of_mem_mnemonic (i : Instr) : ∀ c ∈ i.mnemonic, plainChar c = true := by
  unfold Instr.mnemonic
  cases i <;> simp [plainChar]

/-- R84: a printed line is the mnemonic and its operands' tokens. -/
theorem lexLine_instrText (i : Instr) : lexLine [] (instrText i) = .word i.mnemonic :: operandTokens i.operands := by
  rw [instrText_eq]
  split
  · rename_i h
    rw [h, lexLine_word (mnemonic_ne_nil i) (plainChar_of_mem_mnemonic i) endsWord_nil]
    rfl
  · rw [operandText, lexLine_word (mnemonic_ne_nil i) (plainChar_of_mem_mnemonic i) (endsWord_cons _ rfl),
      lexLine_space, lexLine_texts]

/-- R84: a buffer's bytes are a buffer of its size. -/
theorem wholeBuffer_toList {n : Nat} (f : Vector Byte n) : wholeBuffer n f.toList = some f := by
  rw [wholeBuffer, dif_pos Vector.length_toList]
  exact congrArg some (Vector.toList_inj.mp rfl)

/-- R84: a command's mnemonic and operands stand for that command alone. -/
theorem assembleForm_mnemonic_operands (i : Instr) : assembleForm i.mnemonic i.operands = some [i] := by
  cases i with
  | frameWrite f => exact congrArg (Option.map fun f => [Instr.frameWrite f]) (wholeBuffer_toList f)
  | setKey k => exact congrArg (Option.map fun k => [Instr.setKey k]) (wholeBuffer_toList k)
  | feed | asmReset | prepare | validate | frameRead | checksum | obfuscate | deobfuscate | regRead | regWrite => rfl

/-- R84: a printed command that has a packet is read back. -/
theorem assembleLine_instrText (i : Instr) (h : i.wellFormed = true) : assembleLine (instrText i) = some [i] := by
  rw [assembleLine, lexLine_instrText]
  dsimp only
  rw [readAllOperands_tokens, Option.bind_some, assembleForm_mnemonic_operands]
  simp [h]

end Sys2Proof.Machine

section

open Sys2Proof Sys2Proof.Machine

/-- Settles O49: the printed line lexes to the mnemonic and the operands' tokens, which read back as they were. -/
theorem mnemonicFormReadsBack : Obligations.MnemonicFormReadsBack := by
  unfold Obligations.MnemonicFormReadsBack
  exact assembleLine_instrText

end

end
